-- ==== Sys2Proof/Word.lean ====
section
/-!
DEFINITION. The machine's word and its parts: one width everywhere, 16 bits (00_scope.md R3).
-/
namespace Sys2Proof

/-- A 16-bit word: the contents of a cell, of a register, of the program counter; one instruction (R3, R50). -/
abbrev Word := BitVec 16

/-- The low or high half of a word; a character code the channel is given (43_trap_and_debug.md R101, R102). -/
abbrev Byte := BitVec 8

end Sys2Proof
end

