-- ==== Sys2Proof/Config.lean ====
section
/-!
DEFINITION. What an implementation fixes: the types of the eight named parameters of 00_scope.md R3
(92_eei_decisions.md, "Parameters in one place"), and the one value the spec leaves free. The parameters'
VALUES stand in Machine/Params.lean and, for the field layout, in Decode.lean.
-/
namespace Sys2Proof

/-- EA_OVERFLOW (D5): what a base-plus-index sum or a PUTS scan above 65535 does. -/
inductive EaOverflow where
  | fault | wrap
  deriving DecidableEq, Repr

/-- JSRR_R7_ORDER (D7): is the base of JSRR read after or before the link write. -/
inductive JsrrR7Order where
  | linkFirst | targetFirst
  deriving DecidableEq, Repr

/-- PUTS_TERMINATOR (D8): which word ends a PUTS string. -/
inductive PutsTerminator where
  | lowByteZero | wordZero
  deriving DecidableEq, Repr

/-- INN_OUT_OF_RANGE (D10): what R0 receives when INN reads a number outside the signed 16-bit range. -/
inductive InnOutOfRange where
  | truncate | keep
  deriving DecidableEq, Repr

/-- INN_ERROR_FLAG (D10): what INN does to the condition flag when R0 keeps its prior value. -/
inductive InnErrorFlag where
  | fromR0 | unchanged
  deriving DecidableEq, Repr

/-- The named parameters of 00_scope.md R3, but for the field layout. -/
structure Params where
  /-- EA_OVERFLOW. -/
  eaOverflow : EaOverflow
  /-- JSRR_R7_ORDER. -/
  jsrrR7Order : JsrrR7Order
  /-- PUTS_TERMINATOR. -/
  putsTerminator : PutsTerminator
  /-- INN_OUT_OF_RANGE. -/
  innOutOfRange : InnOutOfRange
  /-- INN_ERROR_FLAG. -/
  innErrorFlag : InnErrorFlag
  /-- BR_PAGECROSS_WHEN_NOT_TAKEN (D14). -/
  brPageCrossWhenNotTaken : Bool
  /-- PC_RESET (D12). -/
  pcReset : Word
  deriving DecidableEq, Repr

/-- FIELD_LAYOUT (30_encoding.md R51, D2): the lowest bit of every field. The widths are the spec's own and fixed. -/
structure FieldLayout where
  /-- `opcode`, 4 bits. -/
  opcode : Nat
  /-- `pgoffset9`, 9 bits. -/
  pgoffset9 : Nat
  /-- `trapvect8`, 8 bits. -/
  trapvect8 : Nat
  /-- `dr`, and `sr` of the stores, 3 bits. -/
  dr : Nat
  /-- `sr1`, and `sr` of NOT, 3 bits. -/
  sr1 : Nat
  /-- `baser`, 3 bits. -/
  baser : Nat
  /-- `sr2`, 3 bits. -/
  sr2 : Nat
  /-- `mode`, 1 bit. -/
  mode : Nat
  /-- `imm5`, 5 bits. -/
  imm5 : Nat
  /-- `index6`, 6 bits. -/
  index6 : Nat
  /-- `L`, 1 bit. -/
  link : Nat
  /-- `n` of BR, 1 bit. -/
  n : Nat
  /-- `z` of BR, 1 bit. -/
  z : Nat
  /-- `p` of BR, 1 bit. -/
  p : Nat
  deriving DecidableEq, Repr

/-- FREE VALUE (log entry 16): the draw the random source answers the k-th TRAP RND with when no draw has been lined
up in the state. Every 16-bit word is possible (43_trap_and_debug.md R107, 93_implementation_defined.md U19). -/
opaque Config.freeDraw : Nat → Word

end Sys2Proof
end

