-- ==== Sys2Proof/Syntax.lean ====
section
/-!
DEFINITION. The instructions as syntax: one constructor per row of spec/opcode_table.json
(30_encoding.md R60), with the decoded fields of R51 as arguments.
-/
namespace Sys2Proof

/-- The eight general registers (10_state.md R11). R0 is the I/O register, R7 the link register (R12). -/
inductive Reg where
  | r0 | r1 | r2 | r3 | r4 | r5 | r6 | r7
  deriving DecidableEq, Repr

/-- One decoded instruction. Page offsets are the 9-bit field itself, indexes the 6-bit field, immediates the
5-bit field: how a meaning widens them is Machine/Operands.lean's. -/
inductive Instr where
  /-- BR: the three condition bits and the page offset (R70). -/
  | br (n z p : Bool) (off : BitVec 9)
  /-- ADD, register form (R80). -/
  | add (dr sr1 sr2 : Reg)
  /-- ADD, immediate form (R81). -/
  | addi (dr sr1 : Reg) (imm : BitVec 5)
  /-- LD (R90). -/
  | ld (dr : Reg) (off : BitVec 9)
  /-- ST (R91). -/
  | st (sr : Reg) (off : BitVec 9)
  /-- JSR: opcode 4 with the link bit set (R71). -/
  | jsr (off : BitVec 9)
  /-- JMP: opcode 4 with the link bit clear (R72). -/
  | jmp (off : BitVec 9)
  /-- AND, register form (R82). -/
  | and (dr sr1 sr2 : Reg)
  /-- AND, immediate form (R83). -/
  | andi (dr sr1 : Reg) (imm : BitVec 5)
  /-- LDR (R92). -/
  | ldr (dr baser : Reg) (idx : BitVec 6)
  /-- STR (R93). -/
  | str (sr baser : Reg) (idx : BitVec 6)
  /-- DBUG (R109). -/
  | dbug
  /-- NOT (R84). -/
  | not (dr sr : Reg)
  /-- LDI (R94). -/
  | ldi (dr : Reg) (off : BitVec 9)
  /-- STI (R95). -/
  | sti (sr : Reg) (off : BitVec 9)
  /-- JSRR: opcode 12 with the link bit set (R73). -/
  | jsrr (baser : Reg) (idx : BitVec 6)
  /-- JMPR: opcode 12 with the link bit clear (R74). -/
  | jmpr (baser : Reg) (idx : BitVec 6)
  /-- RET (R75). -/
  | ret
  /-- LEA (R96). -/
  | lea (dr : Reg) (off : BitVec 9)
  /-- TRAP 0x21 (R101). -/
  | trapOut
  /-- TRAP 0x22 (R102). -/
  | trapPuts
  /-- TRAP 0x23 (R103). -/
  | trapIn
  /-- TRAP 0x25 (R104). -/
  | trapHalt
  /-- TRAP 0x31 (R105). -/
  | trapOutn
  /-- TRAP 0x33 (R106). -/
  | trapInn
  /-- TRAP 0x43 (R107). -/
  | trapRnd
  /-- TRAP with a vector outside the table of R100 (R108). -/
  | trapUnsupported (vector : BitVec 8)
  deriving DecidableEq, Repr

end Sys2Proof
end

