-- ==== Sys2Proof/WellFormed.lean ====
section
/-!
DEFINITION. When an instruction is one the machine has. The types of Instr's fields are the widths of
30_encoding.md R51, so one check is left: an unsupported TRAP carries no supported vector (R62).
-/
namespace Sys2Proof

/-- The seven supported trap vectors (43_trap_and_debug.md R100). -/
def supportedVectors : List (BitVec 8) := [0x21, 0x22, 0x23, 0x25, 0x31, 0x33, 0x43]

/-- An instruction some word decodes to (30_encoding.md R60, R62). -/
def Instr.wellFormed : Instr → Bool
  | .trapUnsupported v => !supportedVectors.contains v
  | .br _ _ _ _ | .add _ _ _ | .addi _ _ _ | .ld _ _ | .st _ _ | .jsr _ | .jmp _ | .and _ _ _ | .andi _ _ _
  | .ldr _ _ _ | .str _ _ _ | .dbug | .not _ _ | .ldi _ _ | .sti _ _ | .jsrr _ _ | .jmpr _ _ | .ret | .lea _ _
  | .trapOut | .trapPuts | .trapIn | .trapHalt | .trapOutn | .trapInn | .trapRnd => true

end Sys2Proof
end

