-- ==== Sys2Proof/Decode.lean ====
section
/-!
DEFINITION. The decoder (30_encoding.md R62) and, after it, the encoder, both over the one field layout of R51.
Decoding is total: no word is illegal (R61), so only an input that is not one 16-bit word is rejected, by name.
-/
namespace Sys2Proof

/-- FIELD_LAYOUT at the layout of R51. PRESUMED (D2, G1; log entry 1): all but `opcode`, `pgoffset9` and `trapvect8`
are the LC-2's positions, which the spec supplies from general knowledge. -/
def fieldLayout : FieldLayout where
  opcode := 12
  pgoffset9 := 0
  trapvect8 := 0
  dr := 9
  sr1 := 6
  baser := 6
  sr2 := 0
  mode := 5
  imm5 := 0
  index6 := 0
  link := 11
  n := 11
  z := 10
  p := 9

/-- The register a 3-bit field names (R57). -/
def regOfField (f : BitVec 3) : Reg :=
  match f.toNat with
  | 0 => .r0
  | 1 => .r1
  | 2 => .r2
  | 3 => .r3
  | 4 => .r4
  | 5 => .r5
  | 6 => .r6
  | _ => .r7

/-- The field that names a register (R57). -/
def fieldOfReg : Reg → BitVec 3
  | .r0 => 0
  | .r1 => 1
  | .r2 => 2
  | .r3 => 3
  | .r4 => 4
  | .r5 => 5
  | .r6 => 6
  | .r7 => 7

/-- Bits `lo + width - 1` down to `lo` of an instruction word. -/
def fieldAt (w : Word) (lo width : Nat) : BitVec width := w.extractLsb' lo width

/-- A one-bit field. -/
def bitAt (w : Word) (lo : Nat) : Bool := w.getLsbD lo

/-- `pgoffset9` of a word (R51). -/
def pgoffset9Of (L : FieldLayout) (w : Word) : BitVec 9 := fieldAt w L.pgoffset9 9

/-- `dr`, or `sr` of a store (R51). -/
def drOf (L : FieldLayout) (w : Word) : Reg := regOfField (fieldAt w L.dr 3)

/-- `sr1`, or `sr` of NOT (R51). -/
def sr1Of (L : FieldLayout) (w : Word) : Reg := regOfField (fieldAt w L.sr1 3)

/-- `baser` (R51). -/
def baserOf (L : FieldLayout) (w : Word) : Reg := regOfField (fieldAt w L.baser 3)

/-- `sr2` (R51). -/
def sr2Of (L : FieldLayout) (w : Word) : Reg := regOfField (fieldAt w L.sr2 3)

/-- `imm5` (R51). -/
def imm5Of (L : FieldLayout) (w : Word) : BitVec 5 := fieldAt w L.imm5 5

/-- `index6` (R51). -/
def index6Of (L : FieldLayout) (w : Word) : BitVec 6 := fieldAt w L.index6 6

/-- Opcode 15: the vector is compared for equality with the seven supported ones (R56, R62). -/
def decodeTrap (vector : BitVec 8) : Instr :=
  if vector = 0x21 then .trapOut
  else if vector = 0x22 then .trapPuts
  else if vector = 0x23 then .trapIn
  else if vector = 0x25 then .trapHalt
  else if vector = 0x31 then .trapOutn
  else if vector = 0x33 then .trapInn
  else if vector = 0x43 then .trapRnd
  else .trapUnsupported vector

/-- The instruction a word is under a field layout (R60, R62). Bits no field covers are not read (R61, log entry 2). -/
def decodeWith (L : FieldLayout) (w : Word) : Instr :=
  match (fieldAt w L.opcode 4).toNat with
  | 0 => .br (bitAt w L.n) (bitAt w L.z) (bitAt w L.p) (pgoffset9Of L w)
  | 1 => if bitAt w L.mode then .addi (drOf L w) (sr1Of L w) (imm5Of L w) else .add (drOf L w) (sr1Of L w) (sr2Of L w)
  | 2 => .ld (drOf L w) (pgoffset9Of L w)
  | 3 => .st (drOf L w) (pgoffset9Of L w)
  | 4 => if bitAt w L.link then .jsr (pgoffset9Of L w) else .jmp (pgoffset9Of L w)
  | 5 => if bitAt w L.mode then .andi (drOf L w) (sr1Of L w) (imm5Of L w) else .and (drOf L w) (sr1Of L w) (sr2Of L w)
  | 6 => .ldr (drOf L w) (baserOf L w) (index6Of L w)
  | 7 => .str (drOf L w) (baserOf L w) (index6Of L w)
  | 8 => .dbug
  | 9 => .not (drOf L w) (sr1Of L w)
  | 10 => .ldi (drOf L w) (pgoffset9Of L w)
  | 11 => .sti (drOf L w) (pgoffset9Of L w)
  | 12 => if bitAt w L.link then .jsrr (baserOf L w) (index6Of L w) else .jmpr (baserOf L w) (index6Of L w)
  | 13 => .ret
  | 14 => .lea (drOf L w) (pgoffset9Of L w)
  | _ => decodeTrap (fieldAt w L.trapvect8 8)

/-- The instruction a word is (R60, R62), under the layout of R51. -/
def decode (w : Word) : Instr := decodeWith fieldLayout w

/-- Why a bit string is no instruction. Every 16-bit word is one (R61), so the length is the only reason (R50). -/
inductive DecodeReject where
  /-- the bits given are not one 16-bit word -/
  | notOneWord
  deriving DecidableEq, Repr

/-- Decode `nbits` bits with value `w`; the bits of the word above them are 0. -/
def decodeSized (nbits w : Nat) : Except DecodeReject Instr :=
  if nbits ≤ 16 ∧ w < 2 ^ nbits then .ok (decode (BitVec.ofNat 16 w)) else .error .notOneWord

/-- The host's question: the instruction of the table word `w` of `nbits` bits. -/
def decodeTableWord (nbits w : Nat) : Option Instr :=
  match decodeSized nbits w with
  | .ok i => some i
  | .error _ => none

/-- A field's bits put in their place in a word. -/
def placeField {width : Nat} (f : BitVec width) (lo : Nat) : Word := f.setWidth 16 <<< lo

/-- A one-bit field put in its place. -/
def placeBit (b : Bool) (lo : Nat) : Word := placeField (BitVec.ofBool b) lo

/-- The opcode put in its place (R50). -/
def placeOpcode (L : FieldLayout) (op : BitVec 4) : Word := placeField op L.opcode

/-- Format OPR: opcode, dr, sr1, mode 0, sr2 (R52). -/
def encodeOpr (L : FieldLayout) (op : BitVec 4) (dr sr1 sr2 : Reg) : Word :=
  placeOpcode L op ||| placeField (fieldOfReg dr) L.dr ||| placeField (fieldOfReg sr1) L.sr1 |||
    placeField (fieldOfReg sr2) L.sr2

/-- Format OPI: opcode, dr, sr1, mode 1, imm5 (R52). -/
def encodeOpi (L : FieldLayout) (op : BitVec 4) (dr sr1 : Reg) (imm : BitVec 5) : Word :=
  placeOpcode L op ||| placeField (fieldOfReg dr) L.dr ||| placeField (fieldOfReg sr1) L.sr1 |||
    placeBit true L.mode ||| placeField imm L.imm5

/-- Format PG: opcode, dr or sr, pgoffset9 (R52). -/
def encodePg (L : FieldLayout) (op : BitVec 4) (r : Reg) (off : BitVec 9) : Word :=
  placeOpcode L op ||| placeField (fieldOfReg r) L.dr ||| placeField off L.pgoffset9

/-- Format JPG: opcode, L, pgoffset9 (R52). -/
def encodeJpg (L : FieldLayout) (op : BitVec 4) (link : Bool) (off : BitVec 9) : Word :=
  placeOpcode L op ||| placeBit link L.link ||| placeField off L.pgoffset9

/-- Format IDX: opcode, dr or sr, baser, index6 (R52). -/
def encodeIdx (L : FieldLayout) (op : BitVec 4) (r baser : Reg) (idx : BitVec 6) : Word :=
  placeOpcode L op ||| placeField (fieldOfReg r) L.dr ||| placeField (fieldOfReg baser) L.baser |||
    placeField idx L.index6

/-- Format JIDX: opcode, L, baser, index6 (R52). -/
def encodeJidx (L : FieldLayout) (op : BitVec 4) (link : Bool) (baser : Reg) (idx : BitVec 6) : Word :=
  placeOpcode L op ||| placeBit link L.link ||| placeField (fieldOfReg baser) L.baser |||
    placeField idx L.index6

/-- Format NOT: opcode, dr, sr (R52). -/
def encodeNot (L : FieldLayout) (op : BitVec 4) (dr sr : Reg) : Word :=
  placeOpcode L op ||| placeField (fieldOfReg dr) L.dr ||| placeField (fieldOfReg sr) L.sr1

/-- Format TRAP: opcode 15, trapvect8 (R52). -/
def encodeTrap (L : FieldLayout) (vector : BitVec 8) : Word := placeOpcode L 15 ||| placeField vector L.trapvect8

/-- Format BR: opcode 0, n, z, p, pgoffset9 (R52). -/
def encodeBr (L : FieldLayout) (n z p : Bool) (off : BitVec 9) : Word :=
  placeOpcode L 0 ||| placeBit n L.n ||| placeBit z L.z ||| placeBit p L.p |||
    placeField off L.pgoffset9

/-- The canonical word of an instruction under a field layout: zeros in the bits no field covers (R61). -/
def encodeWith (L : FieldLayout) : Instr → Word
  | .br n z p off => encodeBr L n z p off
  | .add dr sr1 sr2 => encodeOpr L 1 dr sr1 sr2
  | .addi dr sr1 imm => encodeOpi L 1 dr sr1 imm
  | .ld dr off => encodePg L 2 dr off
  | .st sr off => encodePg L 3 sr off
  | .jsr off => encodeJpg L 4 true off
  | .jmp off => encodeJpg L 4 false off
  | .and dr sr1 sr2 => encodeOpr L 5 dr sr1 sr2
  | .andi dr sr1 imm => encodeOpi L 5 dr sr1 imm
  | .ldr dr baser idx => encodeIdx L 6 dr baser idx
  | .str sr baser idx => encodeIdx L 7 sr baser idx
  | .dbug => placeOpcode L 8
  | .not dr sr => encodeNot L 9 dr sr
  | .ldi dr off => encodePg L 10 dr off
  | .sti sr off => encodePg L 11 sr off
  | .jsrr baser idx => encodeJidx L 12 true baser idx
  | .jmpr baser idx => encodeJidx L 12 false baser idx
  | .ret => placeOpcode L 13
  | .lea dr off => encodePg L 14 dr off
  | .trapOut => encodeTrap L 0x21
  | .trapPuts => encodeTrap L 0x22
  | .trapIn => encodeTrap L 0x23
  | .trapHalt => encodeTrap L 0x25
  | .trapOutn => encodeTrap L 0x31
  | .trapInn => encodeTrap L 0x33
  | .trapRnd => encodeTrap L 0x43
  | .trapUnsupported v => encodeTrap L v

/-- The canonical word of an instruction, under the layout of R51. -/
def encode (i : Instr) : Word := encodeWith fieldLayout i

/-- The bits some field of the instruction's format covers; the others are the `-` bits of R52, ignored (R61). -/
def coveredBits : Instr → Word
  | .add _ _ _ | .and _ _ _ => 0xFFE7
  | .jsr _ | .jmp _ | .jsrr _ _ | .jmpr _ _ => 0xF9FF
  | .not _ _ => 0xFFC0
  | .dbug | .ret => 0xF000
  | .trapOut | .trapPuts | .trapIn | .trapHalt | .trapOutn | .trapInn | .trapRnd | .trapUnsupported _ => 0xF0FF
  | .br _ _ _ _ | .addi _ _ _ | .ld _ _ | .st _ _ | .andi _ _ _ | .ldr _ _ _ | .str _ _ _ | .ldi _ _ | .sti _ _
  | .lea _ _ => 0xFFFF

/-- The `match` and `mask` of the instruction's row in the opcode map (R60). -/
def rowMatchMask : Instr → Word × Word
  | .br _ _ _ _ => (0x0000, 0xF000)
  | .add _ _ _ => (0x1000, 0xF020)
  | .addi _ _ _ => (0x1020, 0xF020)
  | .ld _ _ => (0x2000, 0xF000)
  | .st _ _ => (0x3000, 0xF000)
  | .jsr _ => (0x4800, 0xF800)
  | .jmp _ => (0x4000, 0xF800)
  | .and _ _ _ => (0x5000, 0xF020)
  | .andi _ _ _ => (0x5020, 0xF020)
  | .ldr _ _ _ => (0x6000, 0xF000)
  | .str _ _ _ => (0x7000, 0xF000)
  | .dbug => (0x8000, 0xF000)
  | .not _ _ => (0x9000, 0xF000)
  | .ldi _ _ => (0xA000, 0xF000)
  | .sti _ _ => (0xB000, 0xF000)
  | .jsrr _ _ => (0xC800, 0xF800)
  | .jmpr _ _ => (0xC000, 0xF800)
  | .ret => (0xD000, 0xF000)
  | .lea _ _ => (0xE000, 0xF000)
  | .trapOut => (0xF021, 0xF0FF)
  | .trapPuts => (0xF022, 0xF0FF)
  | .trapIn => (0xF023, 0xF0FF)
  | .trapHalt => (0xF025, 0xF0FF)
  | .trapOutn => (0xF031, 0xF0FF)
  | .trapInn => (0xF033, 0xF0FF)
  | .trapRnd => (0xF043, 0xF0FF)
  | .trapUnsupported _ => (0xF000, 0xF000)

end Sys2Proof
end

