-- ==== Sys2Proof/Machine/Bits.lean ====
section
/-!
DEFINITION. The arithmetic notation of 00_scope.md section 6: truncation, the signed reading, extensions, pages.
-/
namespace Sys2Proof.Machine

/-- `trunc16(n)`: any integer modulo 65536 (00_scope.md section 6, R6). -/
def trunc16 (n : Int) : Word := BitVec.ofInt 16 n

/-- `signed(v)`: the two's-complement reading of a word (00_scope.md R7). -/
def signed (v : Word) : Int := v.toInt

/-- `sext_16` of `imm5` (00_scope.md section 6, 30_encoding.md R53). -/
def sext16 (f : BitVec 5) : Word := f.signExtend 16

/-- `page(a)`: a >> 9, 0 to 127 (00_scope.md R9). -/
def page (a : Word) : Nat := a.toNat / 512

/-- `v[7:0]`: the low 8 bits of a word (43_trap_and_debug.md R101, R102). -/
def lowByte (v : Word) : Byte := v.setWidth 8

/-- The range of a signed 16-bit integer, in which INN's number is no error (43_trap_and_debug.md R106). -/
def inSigned16 (k : Int) : Bool := decide (-32768 ≤ k) && decide (k ≤ 32767)

end Sys2Proof.Machine
end

