-- ==== Sys2Proof/Machine/Params.lean ====
section
/-!
DEFINITION. The values of the named parameters: every default of 92_eei_decisions.md, "Parameters in one place".
The meanings that depend on one take the record as an argument, as 00_scope.md R3 asks; exec gives them this one.
-/
namespace Sys2Proof.Machine

/-- The spec's defaults. DESIGN CHOICE (the spec's D5, D7, D8, D10, D14, D12; log entries 3 to 9). -/
def params : Params where
  eaOverflow := .fault
  jsrrR7Order := .linkFirst
  putsTerminator := .lowByteZero
  innOutOfRange := .truncate
  innErrorFlag := .fromR0
  brPageCrossWhenNotTaken := false
  pcReset := 0

end Sys2Proof.Machine
end

