-- ==== Sys2Proof/Machine/State.lean ====
section
/-!
DEFINITION. The machine's state (10_state.md R10), the environment a step reads and extends (R25), the reset state
(R26), and the reasons a step can stop.
-/
namespace Sys2Proof.Machine

/-- The condition flag: exactly one of Negative, Zero, Positive (10_state.md R16). -/
inductive Cc where
  | n | z | p
  deriving DecidableEq, Repr

/-- The eight general registers (10_state.md R11). -/
structure Regs where
  r0 : Word
  r1 : Word
  r2 : Word
  r3 : Word
  r4 : Word
  r5 : Word
  r6 : Word
  r7 : Word
  deriving DecidableEq, Repr

/-- Memory as (address, 16-bit cell) pairs: the machine's smallest unit is the cell and it has no byte order
(20_memory.md R30, R34; log entry 18). Canonical form: `Memory.wf`. -/
abbrev Memory := List (Nat × Word)

/-- What a cell that is not listed reads as: 0 (20_memory.md R33). -/
def Memory.unlisted : Word := 0

/-- The canonical form from address `lo` on: addresses strictly rising and below 65536, no entry equal to what an
unlisted cell reads as. -/
def Memory.wfFrom : Nat → Memory → Bool
  | _, [] => true
  | lo, (a, v) :: rest =>
    decide (lo ≤ a) && decide (a < 65536) && decide (v ≠ Memory.unlisted) && Memory.wfFrom (a + 1) rest

/-- The canonical form of a memory. -/
def Memory.wf (m : Memory) : Bool := Memory.wfFrom 0 m

/-- An answer of the input channel to `readInt16` (43_trap_and_debug.md R106, R110). -/
inductive IntAnswer where
  | number (k : Int)
  | malformed
  deriving DecidableEq, Repr

/-- The non-fatal reports of the engine and the dump request (60_exceptions.md R120, R123, R125). -/
inductive Diagnostic where
  /-- the instruction was fetched from 65535 -/
  | pcWrap
  /-- a page-relative address `ea` lies in another page than the instruction at `ia` -/
  | pageCross (ia ea : Word)
  /-- signed overflow of the addition of these operands -/
  | overflow (a b : Word)
  /-- TRAP with a vector outside the table -/
  | unsupportedTrap (vector : BitVec 8)
  /-- the integer read is out of range (the number) or malformed (none) -/
  | inputError (k : Option Int)
  /-- DBUG was executed: a request to the diagnostic collaborator (R109) -/
  | debugDump
  deriving DecidableEq, Repr

/-- One event of a step: a memory access (20_memory.md R36), a channel event (43_trap_and_debug.md R110), a diagnostic
(60_exceptions.md R123). -/
inductive Event where
  /-- a read of a cell, the fetch included -/
  | memRead (a : Word)
  /-- a write of a cell -/
  | memWrite (a v : Word)
  /-- `emitChar`, by OUT -/
  | outChar (c : Byte)
  /-- `emitString`, by PUTS -/
  | outString (codes : List Byte)
  /-- `emitDecimal`, by OUTN -/
  | outDecimal (k : Int)
  /-- `readChar` answered, to IN -/
  | inChar (c : Nat)
  /-- `readInt16` answered, to INN -/
  | inInt (r : IntAnswer)
  /-- a diagnostic or the dump request -/
  | diag (d : Diagnostic)
  deriving DecidableEq, Repr

/-- The machine (10_state.md R10) and, beside it, the environment of a step (R25) as plain data. -/
structure State where
  /-- the program counter: between steps the address of the next instruction (R13) -/
  pc : Word
  /-- the condition flag (R16) -/
  cc : Cc
  /-- R0 to R7 (R11) -/
  regs : Regs
  /-- the halted flag (R19) -/
  halted : Bool
  /-- the 65536 cells (20_memory.md R30) -/
  mem : Memory
  /-- the answers `readChar` has ready, oldest first (R25(a); log entry 15) -/
  charIn : List Nat
  /-- the answers `readInt16` has ready, oldest first (R25(a); log entry 15) -/
  intIn : List IntAnswer
  /-- the draws an injected random source has lined up, oldest first (R25(c), R107; log entry 16) -/
  rndIn : List Word
  /-- the model's own: how many draws TRAP RND has made, the argument of Config.freeDraw (log entry 16) -/
  rndCount : Nat
  /-- every event so far, oldest first (00_scope.md R5(a), R25(b), R25(d); log entry 17) -/
  events : List Event
  deriving DecidableEq, Repr

/-- Reset under the parameters given: the creation of the machine (10_state.md R26, 70_reset_and_hazards.md R140). The
pc is PC_RESET (DESIGN CHOICE, log entry 3); the environment starts with nothing supplied and nothing recorded (log entries
15, 16, 17). -/
def State.resetWith (p : Params) : State where
  pc := p.pcReset
  cc := .z
  regs := ⟨0, 0, 0, 0, 0, 0, 0, 0⟩
  halted := false
  mem := []
  charIn := []
  intIn := []
  rndIn := []
  rndCount := 0
  events := []

/-- Reset: the state of the machine right after it. -/
def State.reset : State := State.resetWith params

/-- Why the machine stops for good (60_exceptions.md R120, R121). -/
inductive Fault where
  /-- An address or jump target above 65535 was formed by the instruction at `ia`. Raised by LDR, STR, JSRR, JMPR (base
  plus index) and TRAP PUTS (a scan past 65535). Safe: the spec calls it fatal, and the choice not to wrap (D5, log
  entry 4) can only make a true claim unprovable. -/
  | addressOutOfRange (ia : Word) (address : Nat)
  deriving DecidableEq, Repr

/-- Why the machine has no step. -/
inductive Refusal where
  /-- The instruction has no meaning in the model. Raised by exec's arms only, by none of them once every row has its
  meaning. Safe. -/
  | notModelled (mnemonic : String)
  /-- The engine is Halted: there is no step (10_state.md R20, 60_exceptions.md R122). Raised by step. Safe: nothing can
  be proved about what follows HALT (D18, log entry 14). -/
  | engineHalted
  deriving DecidableEq, Repr

/-- What one instruction, or one step, answers (00_scope.md R5). Hold is a next state equal to the state (log entry 13). -/
abbrev Out := Host.Outcome State Fault Refusal

end Sys2Proof.Machine
end

