-- ==== Sys2Proof/Machine/Ops.lean ====
section
/-!
DEFINITION. The named operations over memory, registers, the cycle and the environment.

This machine takes no exceptions: no event saves state and enters a handler (60_exceptions.md, opening; R128). What
stands in that place is `State.linkR7`, the one write every TRAP makes after its service (43_trap_and_debug.md R100).
-/
namespace Sys2Proof.Machine

/-- `read(addr)` (20_memory.md R31, R33). -/
def Memory.read : Memory → Nat → Word
  | [], _ => Memory.unlisted
  | (b, v) :: rest, a => if a = b then v else Memory.read rest a

/-- `readSigned(addr)` (20_memory.md R31). No instruction uses it. -/
def Memory.readSigned (m : Memory) (a : Nat) : Int := signed (m.read a)

/-- An entry put in front, unless it is what an unlisted cell reads as (20_memory.md R33: writing 0 removes the entry). -/
def Memory.consCell (a : Nat) (v : Word) (rest : Memory) : Memory :=
  if v = Memory.unlisted then rest else (a, v) :: rest

/-- `write(addr, value)` of a word (20_memory.md R31), keeping the canonical form. -/
def Memory.write : Memory → Nat → Word → Memory
  | [], a, v => Memory.consCell a v []
  | (b, w) :: rest, a, v =>
    if a < b then Memory.consCell a v ((b, w) :: rest)
    else if a = b then Memory.consCell a v rest
    else (b, w) :: Memory.write rest a v

/-- `x[r]`, read (10_state.md R11). -/
def Regs.get (x : Regs) : Reg → Word
  | .r0 => x.r0
  | .r1 => x.r1
  | .r2 => x.r2
  | .r3 => x.r3
  | .r4 => x.r4
  | .r5 => x.r5
  | .r6 => x.r6
  | .r7 => x.r7

/-- `x[r] <- v` (10_state.md R11). It does not touch the flag (00_scope.md section 6). -/
def Regs.set (x : Regs) (r : Reg) (v : Word) : Regs :=
  match r with
  | .r0 => { x with r0 := v }
  | .r1 => { x with r1 := v }
  | .r2 => { x with r2 := v }
  | .r3 => { x with r3 := v }
  | .r4 => { x with r4 := v }
  | .r5 => { x with r5 := v }
  | .r6 => { x with r6 := v }
  | .r7 => { x with r7 := v }

/-- `x[r]` of a state. -/
def State.reg (s : State) (r : Reg) : Word := s.regs.get r

/-- `x[r] <- v` on a state. -/
def State.setReg (s : State) (r : Reg) (v : Word) : State := { s with regs := s.regs.set r v }

/-- The contents of the cell at a 16-bit address, which is always in range (20_memory.md R32). -/
def State.cell (s : State) (a : Word) : Word := s.mem.read a.toNat

/-- Append events to the history (00_scope.md section 6, `diag` and `emit`). -/
def State.emit (s : State) (es : List Event) : State := { s with events := s.events ++ es }

/-- `pc <- t`. -/
def State.jump (s : State) (t : Word) : State := { s with pc := t }

/-- `MemWrite(addr, 16, v)`, recorded (20_memory.md R31, R36). -/
def State.storeCell (s : State) (a v : Word) : State :=
  { s with mem := s.mem.write a.toNat v, events := s.events ++ [.memWrite a v] }

/-- The word at `M[pc]` (10_state.md R14, step 1): an ordinary read (20_memory.md R44). -/
def State.fetchWord (s : State) : Word := s.cell s.pc

/-- The events of steps 1 and 2 of the cycle: the fetch read, and PcWrap exactly when `ia = 65535` (10_state.md R14,
R15). -/
def cycleEvents (ia : Word) : List Event :=
  .memRead ia :: if ia = 0xFFFF then [.diag .pcWrap] else []

/-- Steps 1 and 2 of the cycle: the fetch is recorded and pc becomes trunc16(ia + 1) (10_state.md R14, R15). -/
def State.beginCycle (s : State) : State :=
  { s with pc := s.pc + 1, events := s.events ++ cycleEvents s.pc }

/-- `x[7] <- pc`: the link of JSR and JSRR (40_control_transfer.md R71, R73) and of every TRAP after its service
(43_trap_and_debug.md R100, 60_exceptions.md R128). It leaves the flag alone (10_state.md R18; log entry 10). -/
def State.linkR7 (s : State) : State := s.setReg .r7 s.pc

/-- The draw the random source answers with next: the first one lined up, else the free value (43 R107; log entry 16). -/
def State.nextDraw (s : State) : Word :=
  match s.rndIn with
  | k :: _ => k
  | [] => Config.freeDraw s.rndCount

/-- One draw taken from the random source. -/
def State.takeDraw (s : State) : State := { s with rndIn := s.rndIn.tail, rndCount := s.rndCount + 1 }

/-- The channel's owner lines up one more answer to `readChar`, between steps (43_trap_and_debug.md R110). -/
def State.supplyChar (s : State) (c : Nat) : State := { s with charIn := s.charIn ++ [c] }

/-- The channel's owner lines up one more answer to `readInt16`, between steps (43_trap_and_debug.md R110). -/
def State.supplyInt (s : State) (r : IntAnswer) : State := { s with intIn := s.intIn ++ [r] }

/-- The owner of the random source lines up one more draw, between steps (43_trap_and_debug.md R107). -/
def State.supplyDraw (s : State) (k : Word) : State := { s with rndIn := s.rndIn ++ [k] }

/-- Is the event one of the output log (10_state.md R25(b))? -/
def Event.isOutput : Event → Bool
  | .outChar _ | .outString _ | .outDecimal _ => true
  | .memRead _ | .memWrite _ _ | .inChar _ | .inInt _ | .diag _ => false

/-- The output log: `emitChar`, `emitString`, `emitDecimal` events in order (10_state.md R25(b)). -/
def State.outputLog (s : State) : List Event := s.events.filter Event.isOutput

/-- The diagnostic an event reports, if it reports one. -/
def Event.diagnostic? : Event → Option Diagnostic
  | .diag d => some d
  | .memRead _ | .memWrite _ _ | .outChar _ | .outString _ | .outDecimal _ | .inChar _ | .inInt _ => none

/-- The diagnostic log: the diagnostics and dump requests in order (10_state.md R25(d)). -/
def State.diagnosticLog (s : State) : List Diagnostic := s.events.filterMap Event.diagnostic?

/-- The characters an output event sends, those of a decimal left to the channel (43_trap_and_debug.md R105, R110). -/
def Event.characters : Event → List Byte
  | .outChar c => [c]
  | .outString codes => codes
  | .memRead _ | .memWrite _ _ | .outDecimal _ | .inChar _ | .inInt _ | .diag _ => []

end Sys2Proof.Machine
end

