-- ==== Sys2Proof/Machine/Operands.lean ====
section
/-!
DEFINITION. The operand forms: page-relative addresses, base plus index, the two second operands of ADD and AND, and
the string PUTS scans.
-/
namespace Sys2Proof.Machine

/-- The offset address of `pgaddr()`: the page of the post-increment pc, `pc[15:9]`, joined to the 9-bit offset
(30_encoding.md R55). -/
def pgaddr (pc : Word) (off : BitVec 9) : Word := pc.extractLsb' 9 7 ++ off

/-- The diagnostic of `pgaddr()`: the address lies in another page than the instruction at `ia` (30_encoding.md R55). -/
def pageCrossEvents (ia ea : Word) : List Event :=
  if page ea = page ia then [] else [.diag (.pageCross ia ea)]

/-- The state after steps 1 and 2 of the cycle and after `pgaddr()` has formed `pgaddr pc off` and reported a page
crossing (30_encoding.md R55). -/
def State.formPage (s : State) (off : BitVec 9) : State :=
  s.beginCycle.emit (pageCrossEvents s.pc (pgaddr (s.pc + 1) off))

/-- The sum "Base register + 6-bit unsigned index", not truncated: 0 to 65598 (30_encoding.md R54, 42_load_store.md R97). -/
def indexSum (base : Word) (idx : BitVec 6) : Nat := base.toNat + idx.toNat

/-- An address the engine has formed and is about to use: in range it is used, above 65535 it is the fault, or wraps if
the parameter EA_OVERFLOW says so (20_memory.md R32, 42_load_store.md R97, 60_exceptions.md R121; log entry 4). -/
def withAddress (p : Params) (ia : Word) (n : Nat) (use : Word → Out) : Out :=
  if n < 65536 then use (BitVec.ofNat 16 n)
  else
    match p.eaOverflow with
    | .fault => .fault (.addressOutOfRange ia n)
    | .wrap => use (BitVec.ofNat 16 n)

/-- The immediate operand of ADD and AND (30_encoding.md R53, R57). -/
def immOperand (imm : BitVec 5) : Word := sext16 imm

/-- Does this word end a PUTS string (43_trap_and_debug.md R102; PUTS_TERMINATOR, log entry 6)? -/
def endsString (t : PutsTerminator) (w : Word) : Bool :=
  match t with
  | .lowByteZero => decide (lowByte w = 0)
  | .wordZero => decide (w = 0)

/-- The scan of PUTS over at most `cells` cells from `a` upwards: the character codes before the terminator, or none if
no cell of them ends the string (43_trap_and_debug.md R102). -/
def scanString (t : PutsTerminator) (m : Memory) : Nat → Word → Option (List Byte)
  | 0, _ => none
  | cells + 1, a =>
    if endsString t (m.read a.toNat) then some []
    else
      match scanString t m cells (a + 1) with
      | some codes => some (lowByte (m.read a.toNat) :: codes)
      | none => none

/-- How many cells PUTS may scan: those up to 65535, or all of memory if addresses wrap (43_trap_and_debug.md R102). -/
def scanLimit (p : Params) (a : Word) : Nat :=
  match p.eaOverflow with
  | .fault => 65536 - a.toNat
  | .wrap => 65536

/-- The reads of PUTS: `count` cells from `a` upwards, in ascending order (20_memory.md R36). -/
def scanReads : Nat → Word → List Event
  | 0, _ => []
  | count + 1, a => .memRead a :: scanReads count (a + 1)

end Sys2Proof.Machine
end

