-- ==== Sys2Proof/Machine/ControlTransfer.lean ====
section
/-!
DEFINITION. Control transfer: BR, JSR, JMP, JSRR, JMPR, RET (40_control_transfer.md R70 to R75). No delay slot
(70_reset_and_hazards.md R160). A meaning takes the state before the cycle, pc at the instruction, and answers the
state after it (log entry 24).
-/
namespace Sys2Proof.Machine

/-- Does a set condition bit match the flag (40_control_transfer.md R70)? -/
def branchTaken (n z p : Bool) (cc : Cc) : Bool :=
  match cc with
  | .n => n
  | .z => z
  | .p => p

/-- BR under the parameters given (40_control_transfer.md R70; BR_PAGECROSS_WHEN_NOT_TAKEN, log entry 9). -/
def brWith (pr : Params) (n z p : Bool) (off : BitVec 9) (s : State) : Out :=
  if branchTaken n z p s.cc then .next ((s.formPage off).jump (pgaddr (s.pc + 1) off))
  else if pr.brPageCrossWhenNotTaken then .next (s.formPage off)
  else .next s.beginCycle

/-- BR (40_control_transfer.md R70). -/
def execBr (n z p : Bool) (off : BitVec 9) (s : State) : Out := brWith params n z p off s

/-- JSR: R7 receives the post-increment pc, then pc the offset address (40_control_transfer.md R71). -/
def execJsr (off : BitVec 9) (s : State) : Out :=
  .next (((s.formPage off).linkR7).jump (pgaddr (s.pc + 1) off))

/-- JMP (40_control_transfer.md R72). -/
def execJmp (off : BitVec 9) (s : State) : Out :=
  .next ((s.formPage off).jump (pgaddr (s.pc + 1) off))

/-- The base value of JSRR: the new R7 if the link is written first and the base is R7 (40_control_transfer.md R73;
JSRR_R7_ORDER, log entry 5). -/
def jsrrBase (p : Params) (baser : Reg) (s : State) : Word :=
  match p.jsrrR7Order with
  | .linkFirst => s.beginCycle.linkR7.reg baser
  | .targetFirst => s.reg baser

/-- JSRR under the parameters given (40_control_transfer.md R73). -/
def jsrrWith (p : Params) (baser : Reg) (idx : BitVec 6) (s : State) : Out :=
  withAddress p s.pc (indexSum (jsrrBase p baser s) idx) fun t => .next (s.beginCycle.linkR7.jump t)

/-- JSRR (40_control_transfer.md R73). -/
def execJsrr (baser : Reg) (idx : BitVec 6) (s : State) : Out := jsrrWith params baser idx s

/-- JMPR under the parameters given (40_control_transfer.md R74). -/
def jmprWith (p : Params) (baser : Reg) (idx : BitVec 6) (s : State) : Out :=
  withAddress p s.pc (indexSum (s.reg baser) idx) fun t => .next (s.beginCycle.jump t)

/-- JMPR (40_control_transfer.md R74). -/
def execJmpr (baser : Reg) (idx : BitVec 6) (s : State) : Out := jmprWith params baser idx s

/-- RET: the subroutine return, pc := R7; nothing else is restored (40_control_transfer.md R75, 60_exceptions.md R128). -/
def execRet (s : State) : Out := .next (s.beginCycle.jump (s.reg .r7))

end Sys2Proof.Machine
end

