-- ==== Sys2Proof/Machine/Flags.lean ====
section
/-!
DEFINITION. The condition flag (10_state.md R17) and the overflow test of addition (41_operate.md R85).
-/
namespace Sys2Proof.Machine

/-- The value `setcc(v)` gives the flag: N if signed(v) < 0, Z if v = 0, P otherwise (10_state.md R17). -/
def ccOf (v : Word) : Cc :=
  if signed v < 0 then .n else if v = 0 then .z else .p

/-- `setcc(v)` (10_state.md R17). -/
def State.setCc (s : State) (v : Word) : State := { s with cc := ccOf v }

/-- A DR-writing instruction's last two lines: `x[dr] <- v`, then `setcc(x[dr])` (10_state.md R17, R18). -/
def State.writeDr (s : State) (dr : Reg) (v : Word) : State := (s.setReg dr v).setCc v

/-- The overflow test: the operands share a sign and the truncated sum's sign differs (41_operate.md R85; 90 C2, log
entry 25). -/
def overflow (a b : Word) : Bool := (a.msb == b.msb) && ((a + b).msb != a.msb)

/-- The Overflow diagnostic of an addition (41_operate.md R80, R81, R85). -/
def overflowEvents (a b : Word) : List Event :=
  if overflow a b then [.diag (.overflow a b)] else []

end Sys2Proof.Machine
end

