-- ==== Sys2Proof/Machine/LoadStore.lean ====
section
/-!
DEFINITION. Loads, stores and load effective address (42_load_store.md R90 to R97). A meaning takes the state before
the cycle, pc at the instruction, and answers the state after it (log entry 24).
-/
namespace Sys2Proof.Machine

/-- `x[dr] <- MemRead(ea, 16)` and `setcc`, the read recorded (42_load_store.md R90, R92, R94). -/
def State.loadDr (s : State) (dr : Reg) (ea : Word) : State :=
  (s.emit [.memRead ea]).writeDr dr (s.cell ea)

/-- LD (42_load_store.md R90). -/
def execLd (dr : Reg) (off : BitVec 9) (s : State) : Out :=
  .next ((s.formPage off).loadDr dr (pgaddr (s.pc + 1) off))

/-- ST (42_load_store.md R91). -/
def execSt (sr : Reg) (off : BitVec 9) (s : State) : Out :=
  .next ((s.formPage off).storeCell (pgaddr (s.pc + 1) off) (s.reg sr))

/-- LDR under the parameters given (42_load_store.md R92, R97). -/
def ldrWith (p : Params) (dr baser : Reg) (idx : BitVec 6) (s : State) : Out :=
  withAddress p s.pc (indexSum (s.reg baser) idx) fun ea => .next (s.beginCycle.loadDr dr ea)

/-- LDR (42_load_store.md R92). -/
def execLdr (dr baser : Reg) (idx : BitVec 6) (s : State) : Out := ldrWith params dr baser idx s

/-- STR under the parameters given (42_load_store.md R93, R97). -/
def strWith (p : Params) (sr baser : Reg) (idx : BitVec 6) (s : State) : Out :=
  withAddress p s.pc (indexSum (s.reg baser) idx) fun ea => .next (s.beginCycle.storeCell ea (s.reg sr))

/-- STR (42_load_store.md R93). -/
def execStr (sr baser : Reg) (idx : BitVec 6) (s : State) : Out := strWith params sr baser idx s

/-- LDI: the pointer first, then the operand (42_load_store.md R94, 20_memory.md R36). -/
def execLdi (dr : Reg) (off : BitVec 9) (s : State) : Out :=
  let ea := pgaddr (s.pc + 1) off
  .next (((s.formPage off).emit [.memRead ea]).loadDr dr (s.cell ea))

/-- STI: the pointer first, then the store (42_load_store.md R95, 20_memory.md R36). -/
def execSti (sr : Reg) (off : BitVec 9) (s : State) : Out :=
  let ea := pgaddr (s.pc + 1) off
  .next (((s.formPage off).emit [.memRead ea]).storeCell (s.cell ea) (s.reg sr))

/-- LEA: no memory access (42_load_store.md R96). -/
def execLea (dr : Reg) (off : BitVec 9) (s : State) : Out :=
  .next ((s.formPage off).writeDr dr (pgaddr (s.pc + 1) off))

end Sys2Proof.Machine
end

