-- ==== Sys2Proof/Machine/Operate.lean ====
section
/-!
DEFINITION. The operate instructions ADD, AND, NOT (41_operate.md R80 to R84). A meaning takes the state before the
cycle, pc at the instruction, and answers the state after it (log entry 24).
-/
namespace Sys2Proof.Machine

/-- ADD and ADDI over their two operand values (41_operate.md R80, R81). -/
def addValues (dr : Reg) (a b : Word) (s : State) : Out :=
  .next ((s.beginCycle.emit (overflowEvents a b)).writeDr dr (a + b))

/-- AND and ANDI over their two operand values (41_operate.md R82, R83). -/
def andValues (dr : Reg) (a b : Word) (s : State) : Out :=
  .next (s.beginCycle.writeDr dr (a &&& b))

/-- ADD, register form (41_operate.md R80). -/
def execAdd (dr sr1 sr2 : Reg) (s : State) : Out := addValues dr (s.reg sr1) (s.reg sr2) s

/-- ADD, immediate form (41_operate.md R81). -/
def execAddi (dr sr1 : Reg) (imm : BitVec 5) (s : State) : Out := addValues dr (s.reg sr1) (immOperand imm) s

/-- AND, register form (41_operate.md R82). -/
def execAnd (dr sr1 sr2 : Reg) (s : State) : Out := andValues dr (s.reg sr1) (s.reg sr2) s

/-- AND, immediate form (41_operate.md R83). -/
def execAndi (dr sr1 : Reg) (imm : BitVec 5) (s : State) : Out := andValues dr (s.reg sr1) (immOperand imm) s

/-- NOT: every one of the 16 bits inverted (41_operate.md R84). -/
def execNot (dr sr : Reg) (s : State) : Out := .next (s.beginCycle.writeDr dr (~~~(s.reg sr)))

end Sys2Proof.Machine
end

