-- ==== Sys2Proof/Machine/Trap.lean ====
section
/-!
DEFINITION. TRAP's eight services and DBUG (43_trap_and_debug.md R100 to R109). TRAP writes no pc: the service is done
inside the step and then R7 receives the post-increment pc (R100; log entry 11). A meaning takes the state before the
cycle, pc at the instruction, and answers the state after it (log entry 24).
-/
namespace Sys2Proof.Machine

/-- TRAP OUT: the low 8 bits of R0 as one character (43_trap_and_debug.md R101). -/
def execTrapOut (s : State) : Out :=
  .next ((s.beginCycle.emit [.outChar (lowByte (s.reg .r0))]).linkR7)

/-- TRAP PUTS under the parameters given (43_trap_and_debug.md R102). With EA_OVERFLOW = wrap and no terminator in all of
memory the scan never ends, and the step, like a held one, never completes. -/
def putsWith (p : Params) (s : State) : Out :=
  match scanString p.putsTerminator s.mem (scanLimit p (s.reg .r0)) (s.reg .r0) with
  | some codes =>
    .next ((s.beginCycle.emit (scanReads (codes.length + 1) (s.reg .r0) ++ [.outString codes])).linkR7)
  | none =>
    match p.eaOverflow with
    | .fault => .fault (.addressOutOfRange s.pc 65536)
    | .wrap => .next s

/-- TRAP PUTS (43_trap_and_debug.md R102). -/
def execTrapPuts (s : State) : Out := putsWith params s

/-- TRAP IN: held while the channel has no character ready, else its code modulo 65536 into R0 (43_trap_and_debug.md R103;
log entries 12, 13). -/
def execTrapIn (s : State) : Out :=
  match s.charIn with
  | [] => .next s
  | c :: rest =>
    .next ((({ s.beginCycle with charIn := rest }.emit [.inChar c]).writeDr .r0 (trunc16 c)).linkR7)

/-- TRAP HALT: the engine enters Halted (43_trap_and_debug.md R104). -/
def execTrapHalt (s : State) : Out := .next { s.beginCycle with halted := true }.linkR7

/-- TRAP OUTN: R0 as a signed integer (43_trap_and_debug.md R105). -/
def execTrapOutn (s : State) : Out :=
  .next ((s.beginCycle.emit [.outDecimal (signed (s.reg .r0))]).linkR7)

/-- What INN does when R0 keeps its prior value: the flag is set from it, or left, by INN_ERROR_FLAG
(43_trap_and_debug.md R106; log entry 8). -/
def State.keepR0 (p : Params) (s : State) : State :=
  match p.innErrorFlag with
  | .fromR0 => s.setCc (s.reg .r0)
  | .unchanged => s

/-- What INN does with the channel's answer (43_trap_and_debug.md R106; INN_OUT_OF_RANGE, log entry 7). -/
def State.takeInt (p : Params) (r : IntAnswer) (s : State) : State :=
  match r with
  | .number k =>
    if inSigned16 k then s.writeDr .r0 (trunc16 k)
    else
      match p.innOutOfRange with
      | .truncate => (s.emit [.diag (.inputError (some k))]).writeDr .r0 (trunc16 k)
      | .keep => (s.emit [.diag (.inputError (some k))]).keepR0 p
  | .malformed => (s.emit [.diag (.inputError none)]).keepR0 p

/-- TRAP INN under the parameters given (43_trap_and_debug.md R106; log entry 13). -/
def innWith (p : Params) (s : State) : Out :=
  match s.intIn with
  | [] => .next s
  | r :: rest => .next (State.takeInt p r ({ s.beginCycle with intIn := rest }.emit [.inInt r])).linkR7

/-- TRAP INN (43_trap_and_debug.md R106). -/
def execTrapInn (s : State) : Out := innWith params s

/-- TRAP RND: a draw into R0 (43_trap_and_debug.md R107; log entry 16). -/
def execTrapRnd (s : State) : Out :=
  .next ((s.beginCycle.takeDraw.writeDr .r0 s.nextDraw).linkR7)

/-- TRAP with any other vector: a diagnostic and the link write (43_trap_and_debug.md R108). -/
def execTrapUnsupported (vector : BitVec 8) (s : State) : Out :=
  .next ((s.beginCycle.emit [.diag (.unsupportedTrap vector)]).linkR7)

/-- DBUG: the dump request and nothing else (43_trap_and_debug.md R109; log entry 23). -/
def execDbug (s : State) : Out := .next (s.beginCycle.emit [.diag .debugDump])

end Sys2Proof.Machine
end

