-- ==== Sys2Proof/Machine/Dispatch.lean ====
section
/-!
DEFINITION. One arm per constructor of Instr: each the direct call of its meaning.
-/
namespace Sys2Proof.Machine

def exec (i : Instr) (s : State) : Host.Outcome State Fault Refusal :=
  match i with
  | .br n z p off => Sys2Proof.Machine.execBr n z p off s
  | .add dr sr1 sr2 => Sys2Proof.Machine.execAdd dr sr1 sr2 s
  | .addi dr sr1 imm => Sys2Proof.Machine.execAddi dr sr1 imm s
  | .ld dr off => Sys2Proof.Machine.execLd dr off s
  | .st sr off => Sys2Proof.Machine.execSt sr off s
  | .jsr off => Sys2Proof.Machine.execJsr off s
  | .jmp off => Sys2Proof.Machine.execJmp off s
  | .and dr sr1 sr2 => Sys2Proof.Machine.execAnd dr sr1 sr2 s
  | .andi dr sr1 imm => Sys2Proof.Machine.execAndi dr sr1 imm s
  | .ldr dr baser idx => Sys2Proof.Machine.execLdr dr baser idx s
  | .str sr baser idx => Sys2Proof.Machine.execStr sr baser idx s
  | .dbug => Sys2Proof.Machine.execDbug s
  | .not dr sr => Sys2Proof.Machine.execNot dr sr s
  | .ldi dr off => Sys2Proof.Machine.execLdi dr off s
  | .sti sr off => Sys2Proof.Machine.execSti sr off s
  | .jsrr baser idx => Sys2Proof.Machine.execJsrr baser idx s
  | .jmpr baser idx => Sys2Proof.Machine.execJmpr baser idx s
  | .ret => Sys2Proof.Machine.execRet s
  | .lea dr off => Sys2Proof.Machine.execLea dr off s
  | .trapOut => Sys2Proof.Machine.execTrapOut s
  | .trapPuts => Sys2Proof.Machine.execTrapPuts s
  | .trapIn => Sys2Proof.Machine.execTrapIn s
  | .trapHalt => Sys2Proof.Machine.execTrapHalt s
  | .trapOutn => Sys2Proof.Machine.execTrapOutn s
  | .trapInn => Sys2Proof.Machine.execTrapInn s
  | .trapRnd => Sys2Proof.Machine.execTrapRnd s
  | .trapUnsupported vector => Sys2Proof.Machine.execTrapUnsupported vector s

end Sys2Proof.Machine
end

