-- ==== Sys2Proof/Machine/Step.lean ====
section
/-!
DEFINITION. One step (00_scope.md R5, 10_state.md R14, R20): the word at pc is fetched, decoded and executed; a Halted
engine has no step.
-/
namespace Sys2Proof.Machine

/-- One instruction from fetch to its last state change, when the engine is Running (10_state.md R14, R20). -/
def step (s : State) : Host.Outcome State Fault Refusal :=
  if s.halted then .refused .engineHalted else exec (decode s.fetchWord) s

/-- `s` with the word `w` of `nbits` bits (zeros above) in the cell step fetches next, and the engine Running, which
fetching needs (log entry 20). -/
def State.withFetchWord (s : State) (nbits w : Nat) : State :=
  { s with mem := s.mem.write s.pc.toNat (BitVec.ofNat 16 (w % 2 ^ nbits)), halted := false }

end Sys2Proof.Machine
end

