-- ==== Sys2Proof/Machine/DrivingLoop.lean ====
section
/-!
DEFINITION. The host during a run: the driving loop that calls step, and what counts as the end of a run
(70_reset_and_hazards.md R152, R153; log entry 26).
-/
namespace Sys2Proof.Machine

/-- How a driving loop with a step limit leaves the machine (70_reset_and_hazards.md R153). -/
inductive RunEnd where
  /-- the run has ended: Halted, the only final state -/
  | ended (s : State)
  /-- the host stopped stepping a Running machine: abandoned, not ended -/
  | abandoned (s : State)
  /-- the machine stopped with a fault: never a final state -/
  | faulted (r : Fault)
  /-- the model had no step -/
  | refused (r : Refusal)
  deriving DecidableEq, Repr

/-- The driving loop over a step: it never steps a Halted engine, and stops calling the step when its limit is used up
(70_reset_and_hazards.md R152). -/
def driveBy (oneStep : State → Out) : Nat → State → RunEnd
  | 0, s => if s.halted then .ended s else .abandoned s
  | limit + 1, s =>
    if s.halted then .ended s
    else
      match oneStep s with
      | .next t => driveBy oneStep limit t
      | .fault r => .faulted r
      | .refused r => .refused r

/-- The driving loop of the machine. -/
def drive (limit : Nat) (s : State) : RunEnd := driveBy step limit s

end Sys2Proof.Machine
end

