-- ==== Sys2Proof/Machine/Loader.lean ====
section
/-!
DEFINITION. The host load protocol: object-file records, the load session, the load errors and the launch state
(70_reset_and_hazards.md R141, R143 to R150). The loader is not a block of the machine (90_conflicts.md C8); it is here
because it alone sets the launch memory and the launch pc (00_scope.md section 3; log entries 20, 21).
-/
namespace Sys2Proof.Machine

/-- One line of an object file, as its characters. -/
abbrev Line := List Char

/-- The address range and name a Header record declares; the maximum is inclusive and not truncated
(70_reset_and_hazards.md R145). -/
structure Segment where
  name : List Char
  minAddr : Int
  maxAddr : Int
  deriving DecidableEq, Repr

/-- The session's progression: no header, header open, closed (70_reset_and_hazards.md R148). -/
inductive LoadPhase where
  | awaitingHeader
  | segmentOpen (seg : Segment)
  | closed (seg : Segment)
  deriving DecidableEq, Repr

/-- A load session: its phase and the machine it loads (70_reset_and_hazards.md R144). -/
structure LoadSession where
  phase : LoadPhase
  machine : State
  deriving DecidableEq, Repr

/-- The load errors, each fatal to the session (70_reset_and_hazards.md R149; 90_conflicts.md C3 for LE1 and LE7). -/
inductive LoadError where
  /-- Text address outside the segment -/
  | le1
  /-- Text record with no prior Header -/
  | le2
  /-- a second Header record -/
  | le3
  /-- End record with no prior Header -/
  | le4
  /-- a field is not hexadecimal -/
  | le5
  /-- a record shorter than its grammar -/
  | le6
  /-- End address outside the segment -/
  | le7
  deriving DecidableEq, Repr

/-- Why the model gives a session no launch state although no load error was raised (70_reset_and_hazards.md R148, R150;
D21; log entry 21). -/
inductive LoadRefusal where
  /-- an H, T or E line after the End record (R150(b)) -/
  | recordAfterEnd
  /-- a line beginning h, t or e (R150(d)) -/
  | lowerCaseKind
  /-- the file held no Header (R148) -/
  | noHeader
  /-- the file held no End record (R148) -/
  | noEnd
  deriving DecidableEq, Repr

/-- What handing a line to the loader answers. -/
inductive LoadResult where
  | ok (session : LoadSession)
  | error (e : LoadError)
  | refused (r : LoadRefusal)
  deriving DecidableEq, Repr

/-- The value of a hexadecimal digit, in either case (70_reset_and_hazards.md R144, R150(f)). -/
def hexDigit (c : Char) : Option Nat :=
  let k := c.toNat
  if 48 ≤ k ∧ k ≤ 57 then some (k - 48)
  else if 65 ≤ k ∧ k ≤ 70 then some (k - 55)
  else if 97 ≤ k ∧ k ≤ 102 then some (k - 87)
  else none

/-- A 4-digit field, most significant digit first (70_reset_and_hazards.md R144; 20_memory.md R34). -/
def hexField (a b c d : Char) : Option Nat :=
  match hexDigit a, hexDigit b, hexDigit c, hexDigit d with
  | some w, some x, some y, some z => some (((w * 16 + x) * 16 + y) * 16 + z)
  | _, _, _, _ => none

/-- Is the address in the segment's range (70_reset_and_hazards.md R146, R147)? -/
def Segment.holds (seg : Segment) (a : Nat) : Bool := decide (seg.minAddr ≤ a) && decide ((a : Int) ≤ seg.maxAddr)

/-- The Header record's fields: name of 6, start, length (70_reset_and_hazards.md R145). Characters after them are
ignored (R150(c)). -/
def headerRecord (ls : LoadSession) : Line → LoadResult
  | n1 :: n2 :: n3 :: n4 :: n5 :: n6 :: s1 :: s2 :: s3 :: s4 :: l1 :: l2 :: l3 :: l4 :: _ =>
    match hexField s1 s2 s3 s4, hexField l1 l2 l3 l4 with
    | some start, some len =>
      .ok { ls with
        phase := .segmentOpen
          { name := [n1, n2, n3, n4, n5, n6], minAddr := start, maxAddr := (start : Int) + len - 1 } }
    | _, _ => .error .le5
  | _ => .error .le6

/-- The Text record's fields: address, value. It writes the cell (70_reset_and_hazards.md R146). -/
def textRecord (ls : LoadSession) (seg : Segment) : Line → LoadResult
  | a1 :: a2 :: a3 :: a4 :: v1 :: v2 :: v3 :: v4 :: _ =>
    match hexField a1 a2 a3 a4, hexField v1 v2 v3 v4 with
    | some a, some v =>
      if seg.holds a then
        .ok { ls with machine := { ls.machine with mem := ls.machine.mem.write a (BitVec.ofNat 16 v) } }
      else .error .le1
    | _, _ => .error .le5
  | _ => .error .le6

/-- The End record's field: the entry point. It sets pc and closes the session (70_reset_and_hazards.md R147). -/
def endRecord (ls : LoadSession) (seg : Segment) : Line → LoadResult
  | a1 :: a2 :: a3 :: a4 :: _ =>
    match hexField a1 a2 a3 a4 with
    | some a =>
      if seg.holds a then
        .ok { phase := .closed seg, machine := { ls.machine with pc := BitVec.ofNat 16 a } }
      else .error .le7
    | none => .error .le5
  | _ => .error .le6

/-- `parseString(record)`: one line handed to the loader (70_reset_and_hazards.md R144, R148). The checks come in the
order state, length, hexadecimal fields, bounds (R150(a)). -/
def parseRecord (ls : LoadSession) : Line → LoadResult
  | [] => .ok ls
  | kind :: fields =>
    if kind = 'H' then
      match ls.phase with
      | .awaitingHeader => headerRecord ls fields
      | .segmentOpen _ => .error .le3
      | .closed _ => .refused .recordAfterEnd
    else if kind = 'T' then
      match ls.phase with
      | .awaitingHeader => .error .le2
      | .segmentOpen seg => textRecord ls seg fields
      | .closed _ => .refused .recordAfterEnd
    else if kind = 'E' then
      match ls.phase with
      | .awaitingHeader => .error .le4
      | .segmentOpen seg => endRecord ls seg fields
      | .closed _ => .refused .recordAfterEnd
    else if kind = 'h' ∨ kind = 't' ∨ kind = 'e' then .refused .lowerCaseKind
    else .ok ls

/-- The lines of a file, handed over one at a time; processing stops at the first failure (70_reset_and_hazards.md
R141, R149). -/
def loadLines : LoadSession → List Line → LoadResult
  | ls, [] => .ok ls
  | ls, line :: rest =>
    match parseRecord ls line with
    | .ok ls' => loadLines ls' rest
    | .error e => .error e
    | .refused r => .refused r

/-- A session before its first line, on a machine just created under the parameters given (70_reset_and_hazards.md R141,
R148). -/
def LoadSession.newWith (p : Params) : LoadSession := { phase := .awaitingHeader, machine := State.resetWith p }

/-- A session before its first line, on a machine just created. -/
def LoadSession.new : LoadSession := LoadSession.newWith params

/-- `getSegmentName()`: absent before a Header was read (70_reset_and_hazards.md R145, 93 U3). -/
def LoadSession.segmentName? (ls : LoadSession) : Option (List Char) :=
  match ls.phase with
  | .awaitingHeader => none
  | .segmentOpen seg => some seg.name
  | .closed seg => some seg.name

/-- What a whole load session gives the driving loop: the launch state, or why there is none. -/
inductive Launch where
  | ready (s : State)
  | error (e : LoadError)
  | refused (r : LoadRefusal)
  deriving DecidableEq, Repr

/-- The launch state under the parameters given: it exists only if the session closed without error
(70_reset_and_hazards.md R148). -/
def launchWith (p : Params) (file : List Line) : Launch :=
  match loadLines (.newWith p) file with
  | .ok ls =>
    match ls.phase with
    | .awaitingHeader => .refused .noHeader
    | .segmentOpen _ => .refused .noEnd
    | .closed _ => .ready ls.machine
  | .error e => .error e
  | .refused r => .refused r

/-- The launch state under the spec's defaults. -/
def launch (file : List Line) : Launch := launchWith params file

/-- The upper-case hexadecimal digit of a number below 16. -/
def hexChar (d : Nat) : Char := if d < 10 then Char.ofNat (48 + d) else Char.ofNat (55 + d)

/-- A word as a 4-digit field, most significant digit first (70_reset_and_hazards.md R144). -/
def hexOf (w : Word) : Line :=
  [hexChar (w.toNat / 4096), hexChar (w.toNat / 256 % 16), hexChar (w.toNat / 16 % 16), hexChar (w.toNat % 16)]

/-- The Header line of a segment (70_reset_and_hazards.md R145). -/
def headerLine (n1 n2 n3 n4 n5 n6 : Char) (start len : Word) : Line :=
  'H' :: n1 :: n2 :: n3 :: n4 :: n5 :: n6 :: (hexOf start ++ hexOf len)

/-- The Text line that sets a cell (70_reset_and_hazards.md R146). -/
def textLine (a v : Word) : Line := 'T' :: (hexOf a ++ hexOf v)

/-- The End line of an entry point (70_reset_and_hazards.md R147). -/
def endLine (a : Word) : Line := 'E' :: hexOf a

/-- The memory after Text records for these (address, value) pairs in order: the last one for a cell wins
(70_reset_and_hazards.md R146). -/
def writeCells : Memory → List (Word × Word) → Memory
  | m, [] => m
  | m, (a, v) :: rest => writeCells (m.write a.toNat v) rest

end Sys2Proof.Machine
end

