-- ==== Sys2Proof/Machine/Parametric.lean ====
section
/-!
DEFINITION. The machine with the named parameters of 00_scope.md R3 as arguments. exec, step and drive are these at the
spec's defaults (Laws/Parametric.lean); State.resetWith and launchWith are the same for reset and the load session.
-/
namespace Sys2Proof.Machine

/-- What an instruction answers under the parameters given: the meanings a parameter reaches take it, the others are
exec's own. -/
def execWith (p : Params) (i : Instr) (s : State) : Out :=
  match i with
  | .br n z c off => brWith p n z c off s
  | .ldr dr baser idx => ldrWith p dr baser idx s
  | .str sr baser idx => strWith p sr baser idx s
  | .jsrr baser idx => jsrrWith p baser idx s
  | .jmpr baser idx => jmprWith p baser idx s
  | .trapPuts => putsWith p s
  | .trapInn => innWith p s
  | .add dr sr1 sr2 => execAdd dr sr1 sr2 s
  | .addi dr sr1 imm => execAddi dr sr1 imm s
  | .ld dr off => execLd dr off s
  | .st sr off => execSt sr off s
  | .jsr off => execJsr off s
  | .jmp off => execJmp off s
  | .and dr sr1 sr2 => execAnd dr sr1 sr2 s
  | .andi dr sr1 imm => execAndi dr sr1 imm s
  | .dbug => execDbug s
  | .not dr sr => execNot dr sr s
  | .ldi dr off => execLdi dr off s
  | .sti sr off => execSti sr off s
  | .ret => execRet s
  | .lea dr off => execLea dr off s
  | .trapOut => execTrapOut s
  | .trapIn => execTrapIn s
  | .trapHalt => execTrapHalt s
  | .trapOutn => execTrapOutn s
  | .trapRnd => execTrapRnd s
  | .trapUnsupported vector => execTrapUnsupported vector s

/-- One step under the parameters and the field layout given (10_state.md R14, R20). -/
def stepWith (p : Params) (L : FieldLayout) (s : State) : Out :=
  if s.halted then .refused .engineHalted else execWith p (decodeWith L s.fetchWord) s

/-- The driving loop under the parameters and the field layout given (70_reset_and_hazards.md R152). -/
def driveWith (p : Params) (L : FieldLayout) (limit : Nat) (s : State) : RunEnd := driveBy (stepWith p L) limit s

end Sys2Proof.Machine
end

