-- ==== Sys2Proof/Safety.lean ====
section
/-!
DEFINITION. The terms claims use: what is left unchanged, when a step is held, which registers and cells an instruction
reads or writes, when a parameter matters, what the lines of a file write, and the invariant every step keeps.
-/
namespace Sys2Proof.Machine

/-- Every register but those listed is unchanged. -/
def regsSameBut (written : List Reg) (s t : State) : Prop := ∀ r, r ∉ written → t.reg r = s.reg r

/-- Every cell is unchanged: all of memory reads as before. -/
def memSame (s t : State) : Prop := ∀ a, t.mem.read a = s.mem.read a

/-- Every cell but the one at `a` is unchanged. -/
def memSameBut (a : Nat) (s t : State) : Prop := ∀ b, b ≠ a → t.mem.read b = s.mem.read b

/-- No answer of the input channel and no draw was consumed (10_state.md R25). -/
def inputsSame (s t : State) : Prop :=
  t.charIn = s.charIn ∧ t.intIn = s.intIn ∧ t.rndIn = s.rndIn ∧ t.rndCount = s.rndCount

/-- Will TRAP IN or INN wait for the channel (00_scope.md R5(b))? -/
def inputMissing (i : Instr) (s : State) : Bool :=
  match i with
  | .trapIn => s.charIn.isEmpty
  | .trapInn => s.intIn.isEmpty
  | .br _ _ _ _ | .add _ _ _ | .addi _ _ _ | .ld _ _ | .st _ _ | .jsr _ | .jmp _ | .and _ _ _ | .andi _ _ _
  | .ldr _ _ _ | .str _ _ _ | .dbug | .not _ _ | .ldi _ _ | .sti _ _ | .jsrr _ _ | .jmpr _ _ | .ret | .lea _ _
  | .trapOut | .trapPuts | .trapHalt | .trapOutn | .trapRnd | .trapUnsupported _ => false

/-- Is the step of this state held: the engine waits for input (00_scope.md R5(b))? -/
def State.held (s : State) : Bool := inputMissing (decode s.fetchWord) s

/-- The registers an instruction names as read in the table of 10_state.md R12. -/
def readRegs : Instr → List Reg
  | .br _ _ _ _ | .ld _ _ | .ldi _ _ | .lea _ _ | .jsr _ | .jmp _ | .dbug => []
  | .add _ sr1 sr2 | .and _ sr1 sr2 => [sr1, sr2]
  | .addi _ sr1 _ | .andi _ sr1 _ => [sr1]
  | .not _ sr => [sr]
  | .st sr _ | .sti sr _ => [sr]
  | .ldr _ baser _ => [baser]
  | .str sr baser _ => [baser, sr]
  | .jsrr baser _ | .jmpr baser _ => [baser]
  | .ret => [.r7]
  | .trapOut | .trapPuts | .trapOutn | .trapInn => [.r0]
  | .trapIn | .trapRnd | .trapHalt | .trapUnsupported _ => []

/-- The registers an instruction names as written in the table of 10_state.md R12. -/
def writtenRegs : Instr → List Reg
  | .br _ _ _ _ | .st _ _ | .sti _ _ | .str _ _ _ | .jmp _ | .jmpr _ _ | .ret | .dbug => []
  | .add dr _ _ | .addi dr _ _ | .and dr _ _ | .andi dr _ _ | .not dr _ | .ld dr _ | .ldi dr _ | .lea dr _
  | .ldr dr _ _ => [dr]
  | .jsr _ | .jsrr _ _ => [.r7]
  | .trapOut | .trapPuts | .trapOutn | .trapHalt | .trapUnsupported _ => [.r7]
  | .trapIn | .trapInn | .trapRnd => [.r0, .r7]

/-- The register whose new value an instruction's flag update tests (10_state.md R18), if it updates the flag. -/
def flagSource : Instr → Option Reg
  | .add dr _ _ | .addi dr _ _ | .and dr _ _ | .andi dr _ _ | .not dr _ | .ld dr _ | .ldi dr _ | .lea dr _
  | .ldr dr _ _ => some dr
  | .trapIn | .trapInn | .trapRnd => some .r0
  | .br _ _ _ _ | .st _ _ | .sti _ _ | .str _ _ _ | .jsr _ | .jmp _ | .jsrr _ _ | .jmpr _ _ | .ret | .dbug
  | .trapOut | .trapPuts | .trapHalt | .trapOutn | .trapUnsupported _ => none

/-- Does the instruction write pc itself, beyond the increment (10_state.md R14)? -/
def writesPc : Instr → Bool
  | .br _ _ _ _ | .jsr _ | .jmp _ | .jsrr _ _ | .jmpr _ _ | .ret => true
  | .add _ _ _ | .addi _ _ _ | .ld _ _ | .st _ _ | .and _ _ _ | .andi _ _ _ | .ldr _ _ _ | .str _ _ _ | .dbug
  | .not _ _ | .ldi _ _ | .sti _ _ | .lea _ _ | .trapOut | .trapPuts | .trapIn | .trapHalt | .trapOutn | .trapInn
  | .trapRnd | .trapUnsupported _ => false

/-- The cell an instruction stores to in a state, with the address as its meaning computes it (42_load_store.md R91,
R93, R95), and the value stored. -/
def storeTarget (i : Instr) (s : State) : Option (Word × Word) :=
  match i with
  | .st sr off => some (pgaddr (s.pc + 1) off, s.reg sr)
  | .str sr baser idx => some (BitVec.ofNat 16 (indexSum (s.reg baser) idx), s.reg sr)
  | .sti sr off => some (s.cell (pgaddr (s.pc + 1) off), s.reg sr)
  | .br _ _ _ _ | .add _ _ _ | .addi _ _ _ | .ld _ _ | .jsr _ | .jmp _ | .and _ _ _ | .andi _ _ _ | .ldr _ _ _
  | .dbug | .not _ _ | .ldi _ _ | .jsrr _ _ | .jmpr _ _ | .ret | .lea _ _ | .trapOut | .trapPuts | .trapIn
  | .trapHalt | .trapOutn | .trapInn | .trapRnd | .trapUnsupported _ => none

/-- The flag a 16-bit value gives: Negative with bit 15 set, Zero for 0, Positive otherwise (10_state.md R17). -/
def flagOf (v : Word) : Cc := if 32768 ≤ v.toNat then .n else if v.toNat = 0 then .z else .p

/-- What steps 1 and 2 of the cycle record: the fetch, and PcWrap at the top of memory (10_state.md R14, R15). -/
def fetchReport (ia : Word) : List Event :=
  if ia.toNat = 65535 then [.memRead ia, .diag .pcWrap] else [.memRead ia]

/-- What forming the page-relative address `ea` records: PageCross for an instruction in the last cell of its page
(30_encoding.md R55, 60_exceptions.md R123). -/
def crossReport (ia ea : Word) : List Event :=
  if ia.toNat % 512 = 511 then [.diag (.pageCross ia ea)] else []

/-- Nothing but the registers listed, pc, cc, memory and the history may differ. -/
def restSame (written : List Reg) (s t : State) : Prop :=
  regsSameBut written s t ∧ t.halted = s.halted ∧ inputsSame s t

/-- The step wrote the value `v` to `dr` and the flag from it, moved pc past the instruction and recorded `es`. Nothing
else changed. -/
def wroteDr (dr : Reg) (v : Word) (es : List Event) (s t : State) : Prop :=
  t.reg dr = v ∧ t.cc = flagOf v ∧ t.pc = s.pc + 1 ∧ t.events = s.events ++ es ∧ restSame [dr] s t ∧ memSame s t

/-- The step wrote `v` to the cell at `a`, moved pc past the instruction and recorded `es`. Nothing else changed. -/
def wroteCell (a v : Word) (es : List Event) (s t : State) : Prop :=
  t.mem.read a.toNat = v ∧ memSameBut a.toNat s t ∧ t.pc = s.pc + 1 ∧ t.cc = s.cc ∧ t.events = s.events ++ es ∧
    restSame [] s t

/-- The step jumped to `target`, wrote the return address to R7 if `link`, and recorded `es`. Nothing else changed. -/
def jumped (link : Bool) (target : Word) (es : List Event) (s t : State) : Prop :=
  t.pc = target ∧ (link = true → t.reg .r7 = s.pc + 1) ∧ restSame (if link then [.r7] else []) s t ∧ t.cc = s.cc ∧
    memSame s t ∧ t.events = s.events ++ es

/-- A TRAP that writes no register but R7: the link write, pc past the instruction, and the events `es`. Only the halted
flag is left to say. -/
def trapped (es : List Event) (s t : State) : Prop :=
  t.reg .r7 = s.pc + 1 ∧ t.pc = s.pc + 1 ∧ regsSameBut [.r7] s t ∧ t.cc = s.cc ∧ memSame s t ∧ inputsSame s t ∧
    t.events = s.events ++ es

/-- A TRAP that wrote `v` to R0 and the flag from it, then the link to R7, moved pc past the instruction and recorded
`es`. Only the inputs are left to say. -/
def trapWroteR0 (v : Word) (es : List Event) (s t : State) : Prop :=
  t.reg .r0 = v ∧ t.cc = flagOf v ∧ t.reg .r7 = s.pc + 1 ∧ t.pc = s.pc + 1 ∧ regsSameBut [.r0, .r7] s t ∧
    memSame s t ∧ t.halted = s.halted ∧ t.events = s.events ++ es

/-- Is this the address past 65535 that the instruction forms in this state (60_exceptions.md R121)? The base of JSRR is
the link just written when it is R7 (40_control_transfer.md R73). -/
def formsAddress (i : Instr) (s : State) (a : Nat) : Prop :=
  match i with
  | .ldr _ baser idx | .str _ baser idx | .jmpr baser idx => a = (s.reg baser).toNat + idx.toNat
  | .jsrr baser idx => a = (if baser = .r7 then s.pc + 1 else s.reg baser).toNat + idx.toNat
  | .trapPuts => a = 65536 ∧ ∀ k, (s.reg .r0).toNat ≤ k → k < 65536 → (s.mem.read k).toNat % 256 ≠ 0
  | .br _ _ _ _ | .add _ _ _ | .addi _ _ _ | .ld _ _ | .st _ _ | .jsr _ | .jmp _ | .and _ _ _ | .andi _ _ _
  | .dbug | .not _ _ | .ldi _ _ | .sti _ _ | .ret | .lea _ _ | .trapOut | .trapIn | .trapHalt | .trapOutn | .trapInn
  | .trapRnd | .trapUnsupported _ => False

/-- Does the instruction meet a case that one of the spec's parameters is about (92_eei_decisions.md, "Parameters in one
place")? An address above 65535 (D5), the base R7 of JSRR (D7), an INN with an input error (D10), a branch not taken in a
page's last cell (D14); for PUTS, no zero word from R0 up to 65535 with all words before it of non-zero low byte (D5, D8). -/
def parameterCase (i : Instr) (s : State) : Prop :=
  match i with
  | .ldr _ baser idx | .str _ baser idx | .jmpr baser idx => 65535 < (s.reg baser).toNat + idx.toNat
  | .jsrr baser idx => baser = .r7 ∨ 65535 < (s.reg baser).toNat + idx.toNat
  | .br n z p _ => branchTaken n z p s.cc = false ∧ s.pc.toNat % 512 = 511
  | .trapPuts => ¬∃ k, (s.reg .r0).toNat ≤ k ∧ k < 65536 ∧ s.mem.read k = 0 ∧
      ∀ j, (s.reg .r0).toNat ≤ j → j < k → (s.mem.read j).toNat % 256 ≠ 0
  | .trapInn => (∃ rest, s.intIn = .malformed :: rest) ∨
      ∃ k rest, s.intIn = .number k :: rest ∧ (k < -32768 ∨ 32767 < k)
  | .add _ _ _ | .addi _ _ _ | .ld _ _ | .st _ _ | .jsr _ | .jmp _ | .and _ _ _ | .andi _ _ _ | .dbug | .not _ _
  | .ldi _ _ | .sti _ _ | .ret | .lea _ _ | .trapOut | .trapIn | .trapHalt | .trapOutn | .trapRnd
  | .trapUnsupported _ => False

/-- The cell and the value of a line that is a Text record with hexadecimal fields (70_reset_and_hazards.md R146);
characters after them are ignored (D21, log entry 21). -/
def textCell? : Line → Option (Word × Word)
  | kind :: a1 :: a2 :: a3 :: a4 :: v1 :: v2 :: v3 :: v4 :: _ =>
    if kind = 'T' then
      match hexField a1 a2 a3 a4, hexField v1 v2 v3 v4 with
      | some a, some v => some (BitVec.ofNat 16 a, BitVec.ofNat 16 v)
      | _, _ => none
    else none
  | _ => none

/-- The address of a line that is an End record with a hexadecimal field (70_reset_and_hazards.md R147). -/
def endAddress? : Line → Option Word
  | kind :: a1 :: a2 :: a3 :: a4 :: _ =>
    if kind = 'E' then
      match hexField a1 a2 a3 a4 with
      | some a => some (BitVec.ofNat 16 a)
      | none => none
    else none
  | _ => none

/-- A line that is no record: empty, or of another first character than H, T, E (70_reset_and_hazards.md R144) or their
lower-case letters, which are refused (D21, log entry 21). -/
def ignoredLine : Line → Prop
  | [] => True
  | kind :: _ => kind ∉ ['H', 'T', 'E', 'h', 't', 'e']

/-- The segment of a phase, once a Header was read (70_reset_and_hazards.md R145, R148). -/
def LoadPhase.segment? : LoadPhase → Option Segment
  | .awaitingHeader => none
  | .segmentOpen seg => some seg
  | .closed seg => some seg

/-- An event that could really have been recorded: its condition in 60_exceptions.md R123, its range in
43_trap_and_debug.md R110. -/
def Event.justified : Event → Prop
  | .memRead _ | .memWrite _ _ | .outChar _ | .inChar _ | .inInt _ => True
  | .outString codes => ∀ c ∈ codes, c ≠ 0
  | .outDecimal k => -32768 ≤ k ∧ k ≤ 32767
  | .diag .pcWrap | .diag .debugDump => True
  | .diag (.pageCross ia ea) => ia.toNat % 512 = 511 ∧ page ea ≠ page ia ∧ page ea = page (ia + 1)
  | .diag (.overflow a b) => signed a + signed b < -32768 ∨ 32767 < signed a + signed b
  | .diag (.unsupportedTrap v) => v ∉ supportedVectors
  | .diag (.inputError none) => True
  | .diag (.inputError (some k)) => k < -32768 ∨ 32767 < k

/-- The invariant every step keeps: memory is in its canonical form, and every event in the history is justified. -/
def State.Inv (s : State) : Prop := s.mem.wf = true ∧ ∀ e ∈ s.events, e.justified

end Sys2Proof.Machine
end

