-- ==== Sys2Proof/Certificates/Slice0/Obligations.lean ====
section
/-!
DEFINITION. The statements for the provers. The words they are written in (flagOf, fetchReport, crossReport, wroteDr,
wroteCell, jumped, trapped, trapWroteR0, restSame, memSame, storeTarget, Inv and so on) are Safety.lean's.
-/
open Sys2Proof Sys2Proof.Machine

/-! ### Encoding -/

/-- Decoding the canonical word of any well-formed instruction gives it back, every operand at every value. It rests on
the field layout, which the spec supplies from general knowledge (30_encoding.md section 2, D2; log entry 1). -/
def Obligations.DecodeOfEncodeIsTheInstruction : Prop := ∀ i : Instr, i.wellFormed = true → decode (encode i) = i

/-- Every one of the 65536 words decodes to a well-formed instruction, and encoding that gives the word back with zeros
in the bits no field covers. It rests on the field layout (log entry 1) and on ignored bits (D3; log entry 2). -/
def Obligations.EncodeOfDecodeClearsOnlyIgnoredBits : Prop :=
  ∀ w : Word, (decode w).wellFormed = true ∧ encode (decode w) = w &&& coveredBits (decode w)

/-- A word decodes to an instruction of a row of the opcode map exactly when it matches the row, the unsupported TRAP
only when no supported vector matches (30_encoding.md sections 5 and 6; the layout is log entry 1). -/
def Obligations.DecoderFollowsTheOpcodeMap : Prop :=
  ∀ (w : Word) (j : Instr), j.wellFormed = true →
    (rowMatchMask (decode w) = rowMatchMask j ↔
      w &&& (rowMatchMask j).2 = (rowMatchMask j).1 ∧
        ((rowMatchMask j).1 = 0xF000 → w.setWidth 8 ∉ supportedVectors))

/-- Words of the spec's decoding table (95_test_vectors.md, Decoding), bit by bit; the layout is log entry 1. -/
def Obligations.SpecDecodingTableIsReproduced : Prop :=
  decode 0b0000000000000000 = .br false false false 0x000 ∧
  decode 0b0000111000000101 = .br true true true 0x005 ∧
  decode 0b0001010000011001 = .add .r2 .r0 .r1 ∧
  decode 0b0001001001111111 = .addi .r1 .r1 0b11111 ∧
  decode 0b0100011000001000 = .jmp 0x008 ∧
  decode 0b0110100001111111 = .ldr .r4 .r1 63 ∧
  decode 0b1100100101000010 = .jsrr .r5 2 ∧
  decode 0b1001001000111111 = .not .r1 .r0 ∧
  decode 0b1110000111111111 = .lea .r0 0x1FF ∧
  decode 0b1111111100100101 = .trapHalt ∧
  decode 0b1111000000100100 = .trapUnsupported 0x24

/-! ### The step and the whole machine -/

/-- A Running engine's step is exec of the instruction the word at pc decodes to, on the state itself: exec moves pc past
the word and records the fetch (10_state.md section 3; log entry 24). -/
def Obligations.StepRunsTheDecodedInstruction : Prop :=
  ∀ (s : State) (i : Instr), s.halted = false → decode (s.mem.read s.pc.toNat) = i → step s = exec i s

/-- A Halted engine has no step: the model refuses it by name (10_state.md section 5, D18; log entry 14). -/
def Obligations.HaltedEngineHasNoStep : Prop := ∀ s : State, s.halted = true → step s = .refused .engineHalted

/-- Whatever word a Running engine fetches, it executes: the step answers a next state or the one fault, and never a
refusal (30_encoding.md section 6, D3; log entries 2, 4). At a TRAP IN or INN with no answer ready the next state is the
same state: that a hold, the spec's third outcome, is rendered so is log entry 13. -/
def Obligations.EveryWordExecutes : Prop :=
  ∀ s : State, s.halted = false →
    (∃ t, step s = .next t) ∨ ∃ a, 65535 < a ∧ step s = .fault (.addressOutOfRange s.pc a)

/-- A step that is not held first records its fetch, then PcWrap exactly when it fetched from 65535, and an instruction
that is no branch or jump, TRAP included, leaves pc at the next address modulo 65536 (10_state.md section 3; D25, log
entry 11; held steps, log entry 13). -/
def Obligations.CycleAdvancesPcAndReportsWrap : Prop :=
  ∀ (i : Instr) (s t : State), inputMissing i s = false → exec i s = .next t →
    (writesPc i = false → t.pc.toNat = (s.pc.toNat + 1) % 65536) ∧
    ∃ rest, t.events = s.events ++ fetchReport s.pc ++ rest ∧ Event.diag .pcWrap ∉ rest

/-- The flag after any instruction that writes it is Negative iff the signed value of the register it wrote is below 0,
Zero iff it is 0, Positive iff it is above 0. (INN after an input error, where the spec chooses, is left to
TrapInnReportsInputError.) -/
def Obligations.FlagReflectsTheWrittenRegister : Prop :=
  ∀ (i : Instr) (r : Reg) (s t : State), flagSource i = some r → exec i s = .next t →
    (i = .trapIn → s.charIn ≠ []) →
    (i = .trapInn → ∃ k rest, s.intIn = .number k :: rest ∧ -32768 ≤ k ∧ k ≤ 32767) →
    (t.cc = .n ↔ (t.reg r).toInt < 0) ∧ (t.cc = .z ↔ t.reg r = 0) ∧ (t.cc = .p ↔ 0 < (t.reg r).toInt)

/-- No other instruction writes the flag; in particular no link write to R7 does (10_state.md section 4, D6; log
entry 10). -/
def Obligations.OtherInstructionsLeaveTheFlag : Prop :=
  ∀ (i : Instr) (s t : State), flagSource i = none → exec i s = .next t → t.cc = s.cc

/-- The halted flag is false at reset, TRAP HALT alone sets it, nothing clears it, and no instruction reads it: changing
it changes nothing else of what exec answers. -/
def Obligations.HaltedIsSetByHaltAlone : Prop :=
  State.reset.halted = false ∧
  (∀ (i : Instr) (s t : State), exec i s = .next t → (t.halted = true ↔ s.halted = true ∨ i = .trapHalt)) ∧
  ∀ (i : Instr) (s : State) (b : Bool),
    match exec i s with
    | .next t => exec i { s with halted := b } = .next { t with halted := b || decide (i = .trapHalt) }
    | .fault f => exec i { s with halted := b } = .fault f
    | .refused r => exec i { s with halted := b } = .refused r

/-- An instruction writes no register but those its row of the table names (10_state.md section 2). -/
def Obligations.RegisterWritesAreConfined : Prop :=
  ∀ (i : Instr) (s t : State), exec i s = .next t → regsSameBut (writtenRegs i) s t

/-- An instruction's outcome depends on no register but those its row of the table names: a different value in any other
register changes only that register, and not even that if the instruction writes it (10_state.md section 2; the hold of
TRAP IN and INN is log entry 13). -/
def Obligations.RegisterReadsAreConfined : Prop :=
  ∀ (i : Instr) (s : State) (r : Reg) (v : Word), r ∉ readRegs i →
    match exec i s with
    | .next t =>
      exec i (s.setReg r v) =
        .next (if r ∈ writtenRegs i ∧ inputMissing i s = false then t else t.setReg r v)
    | .fault f => exec i (s.setReg r v) = .fault f
    | .refused f => exec i (s.setReg r v) = .refused f

/-- Memory changes only by ST, STR and STI, in the one cell they address (20_memory.md sections 1 and 2; 42_load_store.md). -/
def Obligations.OnlyStoresWriteMemory : Prop :=
  ∀ (i : Instr) (s t : State), s.mem.wf = true → exec i s = .next t →
    match storeTarget i s with
    | some (a, v) => t.mem.read a.toNat = v ∧ memSameBut a.toNat s t
    | none => memSame s t

/-- A step that is not held takes exactly one answer of the input channel for TRAP IN or INN, one draw for TRAP RND, and
leaves all other inputs (10_state.md section 7; log entries 15, 16). -/
def Obligations.InputsAreTakenOneByOne : Prop :=
  ∀ (i : Instr) (s t : State), inputMissing i s = false → exec i s = .next t →
    t.charIn = (if i = .trapIn then s.charIn.tail else s.charIn) ∧
    t.intIn = (if i = .trapInn then s.intIn.tail else s.intIn) ∧
    t.rndIn = (if i = .trapRnd then s.rndIn.tail else s.rndIn) ∧
    t.rndCount = (if i = .trapRnd then s.rndCount + 1 else s.rndCount)

/-- Events are appended and never reordered, merged or dropped: the history before a step, its output log and its
diagnostic log are prefixes of those after it (43_trap_and_debug.md, the I/O channel; log entry 17). -/
def Obligations.HistoryIsAppendOnly : Prop :=
  ∀ s t : State, step s = .next t →
    s.events <+: t.events ∧ s.outputLog <+: t.outputLog ∧ s.diagnosticLog <+: t.diagnosticLog

/-- The invariant every step keeps, from any state that has it: memory stays canonical and every recorded event is
justified (60_exceptions.md section 1; the memory's form is log entry 18). -/
def Obligations.StepKeepsTheInvariant : Prop := ∀ s t : State, s.Inv → step s = .next t → t.Inv

/-- The invariant holds at reset. -/
def Obligations.ResetHasTheInvariant : Prop := State.reset.Inv

/-- exec faults exactly when it forms an address above 65535: LDR, STR, JSRR, JMPR by their sum, TRAP PUTS by a scan
that finds no zero low byte up to 65535. That these fault is the spec's choice (D5; log entry 4), the base of JSRR R7 is
log entry 5, the terminator log entry 6. -/
def Obligations.FaultExactlyOnAddressAbove65535 : Prop :=
  ∀ (i : Instr) (s : State) (f : Fault),
    exec i s = .fault f ↔ ∃ a, 65535 < a ∧ f = .addressOutOfRange s.pc a ∧ formsAddress i s a

/-- Reset leaves every register 0, the flag Z, the engine Running, every cell 0 (10_state.md section 8), pc 0 (the
model's choice, D12; log entry 3), and nothing supplied or recorded (log entries 15 to 17). -/
def Obligations.ResetStateIsAsStated : Prop :=
  (∀ r, State.reset.reg r = 0) ∧ State.reset.cc = .z ∧ State.reset.halted = false ∧
  (∀ a, State.reset.mem.read a = 0) ∧ State.reset.pc = 0 ∧ State.reset.charIn = [] ∧ State.reset.intIn = [] ∧
  State.reset.rndIn = [] ∧ State.reset.rndCount = 0 ∧ State.reset.outputLog = [] ∧ State.reset.diagnosticLog = [] ∧
  State.reset.events = []

/-- A cell never written holds 0; writing 0 makes a cell as if never written, the same data in the model's canonical form
(log entry 18); a never-written cell fetched as an instruction is a BR that is never taken, and no fault; that it reports no
page crossing even in a page's last cell is D14, log entry 9 (20_memory.md section 1). -/
def Obligations.UnwrittenCellsHoldZero : Prop :=
  (∀ a, State.reset.mem.read a = 0) ∧
  (∀ (m : Memory) (a : Nat) (v : Word), m.wf = true → a < 65536 →
    (m.write a 0).read a = 0 ∧ (m.read a = 0 → m.write a 0 = m ∧ (m.write a v).write a 0 = m)) ∧
  ∀ s : State, s.halted = false → s.mem.read s.pc.toNat = 0 →
    ∃ t, step s = .next t ∧ jumped false (s.pc + 1) (fetchReport s.pc) s t

/-- A store into the cell the next step fetches is seen by that fetch (20_memory.md section 4, fetch coherence). -/
def Obligations.StoreIsSeenByTheNextFetch : Prop :=
  ∀ (i : Instr) (s t : State) (v : Word), s.mem.wf = true → s.halted = false → exec i s = .next t →
    storeTarget i s = some (t.pc, v) → step t = exec (decode v) t

/-! ### Operate -/

/-- ADD, register form, at every register and operand value. -/
def Obligations.AddRegisterForm : Prop :=
  ∀ (dr sr1 sr2 : Reg) (s : State), ∃ t, exec (.add dr sr1 sr2) s = .next t ∧
    wroteDr dr (BitVec.ofNat 16 (((s.reg sr1).toNat + (s.reg sr2).toNat) % 65536))
      (fetchReport s.pc ++
        if (s.reg sr1).msb = (s.reg sr2).msb ∧ (s.reg sr1 + s.reg sr2).msb ≠ (s.reg sr1).msb then
          [.diag (.overflow (s.reg sr1) (s.reg sr2))] else []) s t

/-- ADD, immediate form: the second operand is the sign-extended 5-bit immediate. -/
def Obligations.AddImmediateForm : Prop :=
  ∀ (dr sr1 : Reg) (imm : BitVec 5) (s : State), ∃ t, exec (.addi dr sr1 imm) s = .next t ∧
    wroteDr dr (BitVec.ofInt 16 ((s.reg sr1).toInt + imm.toInt))
      (fetchReport s.pc ++
        if (s.reg sr1).toInt + imm.toInt < -32768 ∨ 32767 < (s.reg sr1).toInt + imm.toInt then
          [.diag (.overflow (s.reg sr1) (BitVec.ofInt 16 imm.toInt))] else []) s t

/-- AND, register form: bit i of the result is bit i of both operands. -/
def Obligations.AndRegisterForm : Prop :=
  ∀ (dr sr1 sr2 : Reg) (s : State), ∃ t v, exec (.and dr sr1 sr2) s = .next t ∧
    (∀ b, v.getLsbD b = ((s.reg sr1).getLsbD b && (s.reg sr2).getLsbD b)) ∧ wroteDr dr v (fetchReport s.pc) s t

/-- AND, immediate form: the immediate is sign-extended before the AND, so bits 15 to 4 are all its sign bit. -/
def Obligations.AndImmediateForm : Prop :=
  ∀ (dr sr1 : Reg) (imm : BitVec 5) (s : State), ∃ t v, exec (.andi dr sr1 imm) s = .next t ∧
    (∀ b, v.getLsbD b = ((s.reg sr1).getLsbD b && if b < 4 then imm.getLsbD b else imm.getLsbD 4)) ∧
    wroteDr dr v (fetchReport s.pc) s t

/-- NOT gives 65535 minus the source, and two NOTs give the source back. -/
def Obligations.NotComplements : Prop :=
  ∀ (dr sr : Reg) (s : State), ∃ t, exec (.not dr sr) s = .next t ∧
    wroteDr dr (BitVec.ofNat 16 (65535 - (s.reg sr).toNat)) (fetchReport s.pc) s t ∧
    ∃ u, exec (.not dr dr) t = .next u ∧ u.reg dr = s.reg sr

/-- The two formulations of the overflow test agree, ADD and ADDI report Overflow exactly then, once, and DR and the flag
receive the truncated sum all the same (41_operate.md, the overflow test; the reading is 90_conflicts.md C2, log entry 25). -/
def Obligations.OverflowTestAndReport : Prop :=
  (∀ a b : Word,
    (overflow a b = true ↔ a.msb = b.msb ∧ (a + b).msb ≠ a.msb) ∧
    (overflow a b = true ↔ a.toInt + b.toInt < -32768 ∨ 32767 < a.toInt + b.toInt)) ∧
  ∀ (dr sr1 : Reg) (s : State),
    (∀ sr2, ∃ t, exec (.add dr sr1 sr2) s = .next t ∧
      wroteDr dr (s.reg sr1 + s.reg sr2)
        (fetchReport s.pc ++
          if overflow (s.reg sr1) (s.reg sr2) then [.diag (.overflow (s.reg sr1) (s.reg sr2))] else []) s t) ∧
    ∀ imm : BitVec 5, ∃ t, exec (.addi dr sr1 imm) s = .next t ∧
      wroteDr dr (s.reg sr1 + imm.signExtend 16)
        (fetchReport s.pc ++
          if overflow (s.reg sr1) (imm.signExtend 16) then [.diag (.overflow (s.reg sr1) (imm.signExtend 16))]
          else []) s t

/-! ### Loads, stores and LEA -/

/-- The page-relative address: the page of the post-increment pc joined to the 9-bit offset; it always lies in that page,
and leaves the instruction's own page exactly when the instruction is the last cell of its page (30_encoding.md section
4; the page of the instruction after a wrap is D14, log entry 9). -/
def Obligations.PageRelativeAddress : Prop :=
  ∀ (ia : Word) (off : BitVec 9),
    (pgaddr (ia + 1) off).toNat = (ia.toNat + 1) % 65536 / 512 * 512 + off.toNat ∧
    page (pgaddr (ia + 1) off) = page (ia + 1) ∧
    (page (pgaddr (ia + 1) off) ≠ page ia ↔ ia.toNat % 512 = 511)

/-- LD. -/
def Obligations.LoadPageRelative : Prop :=
  ∀ (dr : Reg) (off : BitVec 9) (s : State), ∃ t, exec (.ld dr off) s = .next t ∧
    wroteDr dr (s.mem.read (pgaddr (s.pc + 1) off).toNat)
      (fetchReport s.pc ++ crossReport s.pc (pgaddr (s.pc + 1) off) ++ [.memRead (pgaddr (s.pc + 1) off)]) s t

/-- ST. -/
def Obligations.StorePageRelative : Prop :=
  ∀ (sr : Reg) (off : BitVec 9) (s : State), s.mem.wf = true → ∃ t, exec (.st sr off) s = .next t ∧
    wroteCell (pgaddr (s.pc + 1) off) (s.reg sr)
      (fetchReport s.pc ++ crossReport s.pc (pgaddr (s.pc + 1) off) ++
        [.memWrite (pgaddr (s.pc + 1) off) (s.reg sr)]) s t

/-- LDR with its sum in range (42_load_store.md, LDR; above 65535 it faults by the spec's choice D5, log entry 4). -/
def Obligations.LoadIndexed : Prop :=
  ∀ (dr baser : Reg) (idx : BitVec 6) (s : State), (s.reg baser).toNat + idx.toNat ≤ 65535 →
    ∃ t, exec (.ldr dr baser idx) s = .next t ∧
      wroteDr dr (s.mem.read ((s.reg baser).toNat + idx.toNat))
        (fetchReport s.pc ++ [.memRead (BitVec.ofNat 16 (indexSum (s.reg baser) idx))]) s t

/-- STR with its sum in range (42_load_store.md, STR; above 65535 it faults by the spec's choice D5, log entry 4). -/
def Obligations.StoreIndexed : Prop :=
  ∀ (sr baser : Reg) (idx : BitVec 6) (s : State), s.mem.wf = true → (s.reg baser).toNat + idx.toNat ≤ 65535 →
    ∃ t, exec (.str sr baser idx) s = .next t ∧
      wroteCell (BitVec.ofNat 16 (indexSum (s.reg baser) idx)) (s.reg sr)
        (fetchReport s.pc ++ [.memWrite (BitVec.ofNat 16 (indexSum (s.reg baser) idx)) (s.reg sr)]) s t

/-- LDI: the pointer is read first, then the operand. -/
def Obligations.LoadIndirect : Prop :=
  ∀ (dr : Reg) (off : BitVec 9) (s : State), ∃ t, exec (.ldi dr off) s = .next t ∧
    wroteDr dr (s.mem.read (s.mem.read (pgaddr (s.pc + 1) off).toNat).toNat)
      (fetchReport s.pc ++ crossReport s.pc (pgaddr (s.pc + 1) off) ++
        [.memRead (pgaddr (s.pc + 1) off), .memRead (s.mem.read (pgaddr (s.pc + 1) off).toNat)]) s t

/-- STI: the pointer is read first, so a pointer to its own cell is overwritten. -/
def Obligations.StoreIndirect : Prop :=
  ∀ (sr : Reg) (off : BitVec 9) (s : State), s.mem.wf = true → ∃ t, exec (.sti sr off) s = .next t ∧
    wroteCell (s.mem.read (pgaddr (s.pc + 1) off).toNat) (s.reg sr)
      (fetchReport s.pc ++ crossReport s.pc (pgaddr (s.pc + 1) off) ++
        [.memRead (pgaddr (s.pc + 1) off), .memWrite (s.mem.read (pgaddr (s.pc + 1) off).toNat) (s.reg sr)]) s t

/-- LEA: the address itself, no data access, and the flag from it. -/
def Obligations.LoadEffectiveAddress : Prop :=
  ∀ (dr : Reg) (off : BitVec 9) (s : State), ∃ t, exec (.lea dr off) s = .next t ∧
    wroteDr dr (pgaddr (s.pc + 1) off) (fetchReport s.pc ++ crossReport s.pc (pgaddr (s.pc + 1) off)) s t

/-! ### Control transfer -/

/-- BR: taken exactly when a set condition bit matches the flag; not taken it forms no address and reports no page
crossing (40_control_transfer.md, BR; the last is D14, log entry 9). -/
def Obligations.BranchOnFlag : Prop :=
  ∀ (n z p : Bool) (off : BitVec 9) (s : State), ∃ t, exec (.br n z p off) s = .next t ∧
    (((n = true ∧ s.cc = .n) ∨ (z = true ∧ s.cc = .z) ∨ (p = true ∧ s.cc = .p)) →
      jumped false (pgaddr (s.pc + 1) off) (fetchReport s.pc ++ crossReport s.pc (pgaddr (s.pc + 1) off)) s t) ∧
    (¬((n = true ∧ s.cc = .n) ∨ (z = true ∧ s.cc = .z) ∨ (p = true ∧ s.cc = .p)) →
      jumped false (s.pc + 1) (fetchReport s.pc) s t)

/-- JSR: R7 receives the post-increment pc, pc the offset address; that the link write leaves the flag is the spec's choice
D6, log entry 10 (40_control_transfer.md, JSR). -/
def Obligations.JumpToSubroutine : Prop :=
  ∀ (off : BitVec 9) (s : State), ∃ t, exec (.jsr off) s = .next t ∧
    jumped true (pgaddr (s.pc + 1) off) (fetchReport s.pc ++ crossReport s.pc (pgaddr (s.pc + 1) off)) s t

/-- JMP: pc the offset address, R7 unchanged (40_control_transfer.md, JMP); that it is the branch that is always taken is the
spec's own inference: "it has the same effect as BRnzp with the same offset [derived: from rule R70 and rule R72]". -/
def Obligations.JumpPageRelative : Prop :=
  ∀ (off : BitVec 9) (s : State), (∃ t, exec (.jmp off) s = .next t ∧
    jumped false (pgaddr (s.pc + 1) off) (fetchReport s.pc ++ crossReport s.pc (pgaddr (s.pc + 1) off)) s t) ∧
    exec (.jmp off) s = exec (.br true true true off) s

/-- JSRR with its target in range. The base R7 is the link just written (D7; log entry 5); a target above 65535 faults
(D5; log entry 4) (40_control_transfer.md, JSRR). -/
def Obligations.JumpToSubroutineIndexed : Prop :=
  ∀ (baser : Reg) (idx : BitVec 6) (s : State),
    (if baser = .r7 then s.pc + 1 else s.reg baser).toNat + idx.toNat ≤ 65535 →
    ∃ t, exec (.jsrr baser idx) s = .next t ∧
      jumped true (BitVec.ofNat 16 ((if baser = .r7 then s.pc + 1 else s.reg baser).toNat + idx.toNat))
        (fetchReport s.pc) s t

/-- JMPR with its target in range, the step of RET when it is JMPR R7, #0; a target above 65535 faults (D5; log entry 4)
(40_control_transfer.md, JMPR). -/
def Obligations.JumpIndexed : Prop :=
  (∀ (baser : Reg) (idx : BitVec 6) (s : State), (s.reg baser).toNat + idx.toNat ≤ 65535 →
    ∃ t, exec (.jmpr baser idx) s = .next t ∧
      jumped false (BitVec.ofNat 16 ((s.reg baser).toNat + idx.toNat)) (fetchReport s.pc) s t) ∧
  ∀ s : State, exec (.jmpr .r7 0) s = exec .ret s

/-- RET: pc receives R7, whatever it holds; nothing else changes. -/
def Obligations.ReturnJumpsToR7 : Prop :=
  ∀ s : State, ∃ t, exec .ret s = .next t ∧ jumped false (s.reg .r7) (fetchReport s.pc) s t

/-! ### TRAP and DBUG -/

/-- TRAP OUT: the low 8 bits of R0 as one character, then the link write; that it leaves the flag and pc is D6 and D25, log
entries 10 and 11 (43_trap_and_debug.md, TRAP OUT). -/
def Obligations.TrapOutEmitsLowByte : Prop :=
  ∀ s : State, ∃ t c, exec .trapOut s = .next t ∧ c.toNat = (s.reg .r0).toNat % 256 ∧
    trapped (fetchReport s.pc ++ [.outChar c]) s t ∧ t.halted = s.halted

/-- TRAP PUTS: any string of non-zero codes that ends at a zero low byte, at or below 65535, goes out as one event; every
cell up to the terminator is read in ascending order; R0 is not advanced (43_trap_and_debug.md, PUTS; the terminator is
D8, log entry 6). -/
def Obligations.TrapPutsEmitsTheString : Prop :=
  ∀ (s : State) (codes : List Byte), (s.reg .r0).toNat + codes.length ≤ 65535 →
    (∀ c ∈ codes, c ≠ 0) →
    (∀ k, k < codes.length → codes[k]? = some ((s.mem.read ((s.reg .r0).toNat + k)).setWidth 8)) →
    (s.mem.read ((s.reg .r0).toNat + codes.length)).toNat % 256 = 0 →
    ∃ t, exec .trapPuts s = .next t ∧ t.halted = s.halted ∧
      trapped (fetchReport s.pc ++
        (List.range (codes.length + 1)).map (fun k => Event.memRead (BitVec.ofNat 16 ((s.reg .r0).toNat + k))) ++
        [.outString codes]) s t

/-- TRAP IN with a character ready: its code modulo 65536 into R0, the flag from it, the answer consumed and recorded,
then the link write (43_trap_and_debug.md, IN; D9, log entries 12, 15). -/
def Obligations.TrapInReadsCharacter : Prop :=
  ∀ (s : State) (c : Nat) (rest : List Nat), s.charIn = c :: rest →
    ∃ t, exec .trapIn s = .next t ∧
      trapWroteR0 (BitVec.ofNat 16 (c % 65536)) (fetchReport s.pc ++ [.inChar c]) s t ∧
      t.charIn = rest ∧ t.intIn = s.intIn ∧ t.rndIn = s.rndIn ∧ t.rndCount = s.rndCount

/-- TRAP HALT: halted becomes true, R7 and pc the address after it, everything else is left; the flag and pc are D6 and D25,
log entries 10 and 11 (43_trap_and_debug.md, TRAP HALT). -/
def Obligations.TrapHaltStopsTheEngine : Prop :=
  ∀ s : State, ∃ t, exec .trapHalt s = .next t ∧ t.halted = true ∧ trapped (fetchReport s.pc) s t ∧
    ∀ u, step t ≠ .next u

/-- TRAP OUTN: R0 as a signed integer, then the link write (43_trap_and_debug.md, OUTN; D20, log entry 23). -/
def Obligations.TrapOutnEmitsSignedDecimal : Prop :=
  ∀ s : State, ∃ t, exec .trapOutn s = .next t ∧ t.halted = s.halted ∧
    trapped (fetchReport s.pc ++
      [.outDecimal (if 32768 ≤ (s.reg .r0).toNat then ((s.reg .r0).toNat : Int) - 65536 else (s.reg .r0).toNat)]) s t

/-- TRAP INN with a number of the signed 16-bit range ready: it goes to R0, the flag from it, no error, then the link
write; so under every value of the parameters (43_trap_and_debug.md, INN; log entries 7, 8, 15). -/
def Obligations.TrapInnReadsInRangeNumber : Prop :=
  ∀ (s : State) (k : Int) (rest : List IntAnswer), s.intIn = .number k :: rest → -32768 ≤ k → k ≤ 32767 →
    (∃ t, exec .trapInn s = .next t ∧
      trapWroteR0 (BitVec.ofInt 16 k) (fetchReport s.pc ++ [.inInt (.number k)]) s t ∧ (t.reg .r0).toInt = k ∧
      t.charIn = s.charIn ∧ t.intIn = rest ∧ t.rndIn = s.rndIn ∧ t.rndCount = s.rndCount) ∧
    ∀ p : Params, innWith p s = exec .trapInn s

/-- TRAP INN with an out-of-range number ready stores it truncated; with malformed input it keeps R0. Both report
InputError once and set the flag from R0: the spec's choices (43_trap_and_debug.md, INN; D10, log entries 7, 8). -/
def Obligations.TrapInnReportsInputError : Prop :=
  ∀ (s : State) (rest : List IntAnswer),
    (∀ k : Int, s.intIn = .number k :: rest → (k < -32768 ∨ 32767 < k) →
      ∃ t, exec .trapInn s = .next t ∧
        trapWroteR0 (BitVec.ofNat 16 (k % 65536).toNat)
          (fetchReport s.pc ++ [.inInt (.number k), .diag (.inputError (some k))]) s t ∧
        t.charIn = s.charIn ∧ t.intIn = rest ∧ t.rndIn = s.rndIn ∧ t.rndCount = s.rndCount) ∧
    (s.intIn = .malformed :: rest →
      ∃ t, exec .trapInn s = .next t ∧
        trapWroteR0 (s.reg .r0) (fetchReport s.pc ++ [.inInt .malformed, .diag (.inputError none)]) s t ∧
        t.charIn = s.charIn ∧ t.intIn = rest ∧ t.rndIn = s.rndIn ∧ t.rndCount = s.rndCount)

/-- TRAP RND: the draw goes to R0 and the flag from it, then the link write: the first draw lined up, else a free value,
of which nothing is said (43_trap_and_debug.md, RND; log entry 16). -/
def Obligations.TrapRndStoresTheDraw : Prop :=
  ∀ s : State, ∃ t k, exec .trapRnd s = .next t ∧ (∀ v rest, s.rndIn = v :: rest → k = v) ∧
    trapWroteR0 k (fetchReport s.pc) s t ∧ t.charIn = s.charIn ∧ t.intIn = s.intIn ∧ t.rndIn = s.rndIn.tail ∧
    t.rndCount = s.rndCount + 1

/-- TRAP with a vector outside the table: one diagnostic that carries the vector, and the link write; that it leaves the flag
and pc is D6 and D25, log entries 10 and 11 (43_trap_and_debug.md, TRAP with any other vector). -/
def Obligations.TrapUnsupportedReports : Prop :=
  ∀ (v : BitVec 8) (s : State), v ∉ supportedVectors →
    ∃ t, exec (.trapUnsupported v) s = .next t ∧ t.halted = s.halted ∧
      trapped (fetchReport s.pc ++ [.diag (.unsupportedTrap v)]) s t

/-- DBUG: the dump request and the increment of pc, nothing else (43_trap_and_debug.md, DBUG; D22, log entry 23). -/
def Obligations.DebugRequestsDump : Prop :=
  ∀ s : State, ∃ t, exec .dbug s = .next t ∧
    jumped false (s.pc + 1) (fetchReport s.pc ++ [.diag .debugDump]) s t

/-- A Running engine at TRAP IN or INN with no answer ready is held: the step leaves the whole state, pc and history
included, as it is; any one answer of the kind it waits for ends the hold, and the next step then completes the instruction
(00_scope.md section 5; log entries 13, 15). -/
def Obligations.HeldStepChangesNothing : Prop :=
  ∀ s : State, s.halted = false → s.held = true → step s = .next s ∧
    ((decode s.fetchWord = .trapIn ∧ ∀ c : Nat, (s.supplyChar c).held = false ∧
        ∃ t, step (s.supplyChar c) = .next t ∧ t.pc = s.pc + 1 ∧ t.reg .r0 = BitVec.ofNat 16 c) ∨
      (decode s.fetchWord = .trapInn ∧ ∀ r : IntAnswer, (s.supplyInt r).held = false ∧
        ∃ t, step (s.supplyInt r) = .next t ∧ t.pc = s.pc + 1))

/-- Where no case arises that a parameter is about (parameterCase, over every instruction), every value of the parameters
gives the outcome of the defaults: of an instruction, of a step, and of a load session in every case
(92_eei_decisions.md D5, D7, D8, D10, D12, D14; log entries 3 to 9). -/
def Obligations.ParametersMatterOnlyInTheirCases : Prop :=
  ∀ p : Params,
    (∀ (i : Instr) (s : State), ¬parameterCase i s → execWith p i s = exec i s) ∧
    (∀ s : State, ¬parameterCase (decode s.fetchWord) s → stepWith p fieldLayout s = step s) ∧
    ∀ file : List Line, launchWith p file = launch file

/-! ### The host: load session and driving loop -/

/-- A Header record opens the segment it declares and touches nothing of the machine; in any other phase it fails
(70_reset_and_hazards.md section 2, Header record; the untruncated maximum and the order of checks are D21, log entry
21). -/
def Obligations.HeaderRecordOpensTheSegment : Prop :=
  ∀ (ls : LoadSession) (n1 n2 n3 n4 n5 n6 : Char) (start len : Word),
    (ls.phase = .awaitingHeader →
      parseRecord ls (headerLine n1 n2 n3 n4 n5 n6 start len) =
        .ok ⟨.segmentOpen ⟨[n1, n2, n3, n4, n5, n6], start.toNat, (start.toNat : Int) + len.toNat - 1⟩, ls.machine⟩) ∧
    (∀ seg, ls.phase = .segmentOpen seg →
      parseRecord ls (headerLine n1 n2 n3 n4 n5 n6 start len) = .error .le3)

/-- A Text record (any eight hexadecimal digits, in either case) needs a Header and an address in the segment; it writes
the value at the address, and of two records for one address the last wins. (The errors' names are the spec's, D16.) -/
def Obligations.TextRecordWritesTheCell : Prop :=
  ∀ (ls : LoadSession) (seg : Segment) (a v w : Word) (a1 a2 a3 a4 v1 v2 v3 v4 w1 w2 w3 w4 : Char),
    ls.machine.mem.wf = true → hexField a1 a2 a3 a4 = some a.toNat → hexField v1 v2 v3 v4 = some v.toNat →
    hexField w1 w2 w3 w4 = some w.toNat →
    (ls.phase = .awaitingHeader → parseRecord ls ['T', a1, a2, a3, a4, v1, v2, v3, v4] = .error .le2) ∧
    (ls.phase = .segmentOpen seg → ¬(seg.minAddr ≤ a.toNat ∧ (a.toNat : Int) ≤ seg.maxAddr) →
      parseRecord ls ['T', a1, a2, a3, a4, v1, v2, v3, v4] = .error .le1) ∧
    (ls.phase = .segmentOpen seg → seg.minAddr ≤ a.toNat → (a.toNat : Int) ≤ seg.maxAddr →
      ∃ ls', parseRecord ls ['T', a1, a2, a3, a4, v1, v2, v3, v4] = .ok ls' ∧ ls'.phase = .segmentOpen seg ∧
        ls'.machine.mem.read a.toNat = v ∧ memSameBut a.toNat ls.machine ls'.machine ∧
        ls'.machine = { ls.machine with mem := ls'.machine.mem } ∧
        ∃ ls'', parseRecord ls' ['T', a1, a2, a3, a4, w1, w2, w3, w4] = .ok ls'' ∧
          ls''.phase = .segmentOpen seg ∧ ls''.machine.mem.read a.toNat = w ∧
          memSameBut a.toNat ls.machine ls''.machine)

/-- An End record (any four hexadecimal digits, in either case) needs a Header and an address in the segment; it sets pc
and closes the session, and nothing else (70_reset_and_hazards.md section 2, End record; that the error is LE7 and not LE1
is 90_conflicts.md C3, log entry 21). -/
def Obligations.EndRecordSetsThePc : Prop :=
  ∀ (ls : LoadSession) (seg : Segment) (a : Word) (a1 a2 a3 a4 : Char), hexField a1 a2 a3 a4 = some a.toNat →
    (ls.phase = .awaitingHeader → parseRecord ls ['E', a1, a2, a3, a4] = .error .le4) ∧
    (ls.phase = .segmentOpen seg → ¬(seg.minAddr ≤ a.toNat ∧ (a.toNat : Int) ≤ seg.maxAddr) →
      parseRecord ls ['E', a1, a2, a3, a4] = .error .le7) ∧
    (ls.phase = .segmentOpen seg → seg.minAddr ≤ a.toNat → (a.toNat : Int) ≤ seg.maxAddr →
      parseRecord ls ['E', a1, a2, a3, a4] = .ok ⟨.closed seg, { ls.machine with pc := a }⟩)

/-- Whatever lines a session is given, a load that goes through changes only the cells of the file's Text lines, written in
their order with their values and all inside the session's segment, and the pc, which is the End line's address if there is
one: no register, not the flag, not halted, nothing of the environment. A line that is no record changes nothing
(70_reset_and_hazards.md sections 1 and 2; what is ignored or refused is D21, log entry 21). -/
def Obligations.LoadChangesOnlyMemoryAndPc : Prop :=
  (∀ (file : List Line) (ls ls' : LoadSession), loadLines ls file = .ok ls' →
    ls'.machine =
      { ls.machine with
        pc := ((file.filterMap endAddress?).getLast?).getD ls.machine.pc
        mem := writeCells ls.machine.mem (file.filterMap textCell?) } ∧
    ∀ c ∈ file.filterMap textCell?, ∃ seg, ls'.phase.segment? = some seg ∧ seg.holds c.1.toNat = true) ∧
  ∀ (ls : LoadSession) (line : Line), ignoredLine line → parseRecord ls line = .ok ls

/-- A well-formed object file (a Header, Text records in its segment, an End record in it, upper-case digits) launches: the reset state with
each Text record's cell written in order and pc at the End record's address (70_reset_and_hazards.md sections 1 and 2;
D21, log entries 20, 21). -/
def Obligations.WellFormedObjectFileLaunches : Prop :=
  ∀ (n1 n2 n3 n4 n5 n6 : Char) (start len entry : Word) (cells : List (Word × Word)),
    (∀ c ∈ cells, start.toNat ≤ c.1.toNat ∧ c.1.toNat < start.toNat + len.toNat) →
    start.toNat ≤ entry.toNat → entry.toNat < start.toNat + len.toNat →
    launch (headerLine n1 n2 n3 n4 n5 n6 start len :: (cells.map (fun c => textLine c.1 c.2) ++ [endLine entry])) =
      .ready { State.reset with mem := writeCells [] cells, pc := entry }

/-- A run ends only in a Halted state, and a larger step limit does not change it: a driving loop never steps a Halted
engine (70_reset_and_hazards.md section 3; D23, log entry 26). -/
def Obligations.EndedRunIsHaltedAndStable : Prop :=
  ∀ (limit extra : Nat) (s t : State), drive limit s = .ended t → t.halted = true ∧ drive (limit + extra) s = .ended t
end

