-- ==== Sys2Proof/Laws/Encoding.lean ====
section
/-!
SUPPORT. The laws of fields in an instruction word: reading a field where it was placed gives it back, reading beside it
gives 0, and a register field names one register (30_encoding.md R51, R57).
-/
namespace Sys2Proof

@[simp] theorem regOfField_fieldOfReg (r : Reg) : regOfField (fieldOfReg r) = r := by cases r <;> rfl

@[simp] theorem fieldOfReg_regOfField (f : BitVec 3) : fieldOfReg (regOfField f) = f := by revert f; decide

theorem placeField_getLsbD {k : Nat} (f : BitVec k) (lo i : Nat) :
    (placeField f lo).getLsbD i = (decide (i < 16) && decide (lo ≤ i) && f.getLsbD (i - lo)) := by
  simp only [placeField, BitVec.getLsbD_shiftLeft, BitVec.getLsbD_setWidth]
  by_cases h : i < 16 <;> by_cases h' : lo ≤ i <;>
    simp only [h, h', decide_true, decide_false, Bool.true_and, Bool.false_and]
  · rw [decide_eq_false (by omega : ¬i < lo), decide_eq_true (by omega : i - lo < 16)]; simp
  · rw [decide_eq_true (by omega : i < lo)]; simp

theorem fieldAt_getLsbD (w : Word) (lo k i : Nat) :
    (fieldAt w lo k).getLsbD i = (decide (i < k) && w.getLsbD (lo + i)) := by
  simp [fieldAt]

@[simp] theorem fieldAt_or (v w : Word) (lo k : Nat) : fieldAt (v ||| w) lo k = fieldAt v lo k ||| fieldAt w lo k := by
  apply BitVec.eq_of_getLsbD_eq
  intro i hi
  rw [BitVec.getLsbD_or, fieldAt_getLsbD, fieldAt_getLsbD, fieldAt_getLsbD, BitVec.getLsbD_or, Bool.and_or_distrib_left]

theorem fieldAt_placeField_self {k : Nat} (f : BitVec k) (lo : Nat) (h : lo + k ≤ 16) :
    fieldAt (placeField f lo) lo k = f := by
  apply BitVec.eq_of_getLsbD_eq
  intro i hi
  rw [fieldAt_getLsbD, placeField_getLsbD, decide_eq_true hi, decide_eq_true (by omega : lo + i < 16)]
  simp

theorem fieldAt_placeField_beside {k : Nat} (f : BitVec k) (lo lo' k' : Nat) (h : lo + k ≤ lo' ∨ lo' + k' ≤ lo) :
    fieldAt (placeField f lo) lo' k' = 0 := by
  apply BitVec.eq_of_getLsbD_eq
  intro i hi
  rw [fieldAt_getLsbD, placeField_getLsbD]
  rcases h with h | h
  · simp [BitVec.getLsbD_of_ge f (lo' + i - lo) (by omega)]
  · simp [show ¬lo ≤ lo' + i by omega]

@[simp] theorem bitAt_or (v w : Word) (lo : Nat) : bitAt (v ||| w) lo = (bitAt v lo || bitAt w lo) :=
  BitVec.getLsbD_or

theorem or_and (u v m : Word) : (u ||| v) &&& m = u &&& m ||| v &&& m := by
  apply BitVec.eq_of_getLsbD_eq
  intro i _
  rw [BitVec.getLsbD_and, BitVec.getLsbD_or, BitVec.getLsbD_or, BitVec.getLsbD_and, BitVec.getLsbD_and,
    Bool.and_or_distrib_right]

/-- A mask that covers no bit of a field drops the field. -/
theorem placeField_and_eq_zero {k : Nat} (f : BitVec k) (lo : Nat) (m : Word)
    (h : ∀ i, i < k → m.getLsbD (lo + i) = false) : placeField f lo &&& m = 0 := by
  apply BitVec.eq_of_getLsbD_eq
  intro i _
  rw [BitVec.getLsbD_and, placeField_getLsbD, show (0 : Word).getLsbD i = false from BitVec.getLsbD_zero]
  by_cases hlo : lo ≤ i
  · by_cases hk : i - lo < k
    · have := h (i - lo) hk
      rw [Nat.add_sub_cancel' hlo] at this
      rw [this, Bool.and_false]
    · rw [BitVec.getLsbD_of_ge f (i - lo) (by omega), Bool.and_false, Bool.false_and]
  · rw [decide_eq_false hlo, Bool.and_false, Bool.false_and, Bool.false_and]

theorem bitAt_placeBit_self (b : Bool) (lo : Nat) (h : lo < 16) : bitAt (placeBit b lo) lo = b := by
  rw [bitAt, placeBit, placeField_getLsbD, decide_eq_true h]
  simp

theorem bitAt_placeField_beside {k : Nat} (f : BitVec k) (lo i : Nat) (h : lo + k ≤ i ∨ i < lo) :
    bitAt (placeField f lo) i = false := by
  rw [bitAt, placeField_getLsbD]
  rcases h with h | h
  · simp [BitVec.getLsbD_of_ge f (i - lo) (by omega)]
  · simp [show ¬lo ≤ i by omega]

end Sys2Proof
end

