-- ==== Sys2Proof/Laws/State.lean ====
section
/-!
SUPPORT. What each update of the state does to each of its fields: one lemma per field per update, so that no proof
unfolds a record update.
-/
namespace Sys2Proof.Machine

section Registers
variable (x : Regs) (r d : Reg) (v : Word)

@[simp] theorem Regs.get_set_self : (x.set d v).get d = v := by cases d <;> rfl

theorem Regs.get_set_of_ne (h : r ≠ d) : (x.set d v).get r = x.get r := by cases d <;> cases r <;> first | rfl | exact absurd rfl h

theorem Regs.get_set : (x.set d v).get r = if r = d then v else x.get r := by
  split
  · subst_vars; exact Regs.get_set_self x _ v
  · exact Regs.get_set_of_ne x r d v ‹_›

/-- Registers that read alike are the same registers. -/
theorem Regs.ext_get {x y : Regs} (h : ∀ r, x.get r = y.get r) : x = y := by
  cases x; cases y
  simp only [Regs.mk.injEq]
  exact ⟨h .r0, h .r1, h .r2, h .r3, h .r4, h .r5, h .r6, h .r7⟩

@[simp] theorem Regs.set_get_self : x.set d (x.get d) = x := by cases d <;> rfl

end Registers

section Fields
variable (s : State)

@[simp] theorem State.emit_pc (es : List Event) : (s.emit es).pc = s.pc := rfl
@[simp] theorem State.emit_cc (es : List Event) : (s.emit es).cc = s.cc := rfl
@[simp] theorem State.emit_regs (es : List Event) : (s.emit es).regs = s.regs := rfl
@[simp] theorem State.emit_halted (es : List Event) : (s.emit es).halted = s.halted := rfl
@[simp] theorem State.emit_mem (es : List Event) : (s.emit es).mem = s.mem := rfl
@[simp] theorem State.emit_charIn (es : List Event) : (s.emit es).charIn = s.charIn := rfl
@[simp] theorem State.emit_intIn (es : List Event) : (s.emit es).intIn = s.intIn := rfl
@[simp] theorem State.emit_rndIn (es : List Event) : (s.emit es).rndIn = s.rndIn := rfl
@[simp] theorem State.emit_rndCount (es : List Event) : (s.emit es).rndCount = s.rndCount := rfl
@[simp] theorem State.emit_events (es : List Event) : (s.emit es).events = s.events ++ es := rfl
@[simp] theorem State.emit_reg (es : List Event) (r : Reg) : (s.emit es).reg r = s.reg r := rfl
@[simp] theorem State.emit_cell (es : List Event) (a : Word) : (s.emit es).cell a = s.cell a := rfl

@[simp] theorem State.jump_pc (t : Word) : (s.jump t).pc = t := rfl
@[simp] theorem State.jump_cc (t : Word) : (s.jump t).cc = s.cc := rfl
@[simp] theorem State.jump_regs (t : Word) : (s.jump t).regs = s.regs := rfl
@[simp] theorem State.jump_halted (t : Word) : (s.jump t).halted = s.halted := rfl
@[simp] theorem State.jump_mem (t : Word) : (s.jump t).mem = s.mem := rfl
@[simp] theorem State.jump_charIn (t : Word) : (s.jump t).charIn = s.charIn := rfl
@[simp] theorem State.jump_intIn (t : Word) : (s.jump t).intIn = s.intIn := rfl
@[simp] theorem State.jump_rndIn (t : Word) : (s.jump t).rndIn = s.rndIn := rfl
@[simp] theorem State.jump_rndCount (t : Word) : (s.jump t).rndCount = s.rndCount := rfl
@[simp] theorem State.jump_events (t : Word) : (s.jump t).events = s.events := rfl
@[simp] theorem State.jump_reg (t : Word) (r : Reg) : (s.jump t).reg r = s.reg r := rfl
@[simp] theorem State.jump_cell (t : Word) (a : Word) : (s.jump t).cell a = s.cell a := rfl

@[simp] theorem State.setReg_pc (r : Reg) (v : Word) : (s.setReg r v).pc = s.pc := rfl
@[simp] theorem State.setReg_cc (r : Reg) (v : Word) : (s.setReg r v).cc = s.cc := rfl
@[simp] theorem State.setReg_regs (r : Reg) (v : Word) : (s.setReg r v).regs = s.regs.set r v := rfl
@[simp] theorem State.setReg_halted (r : Reg) (v : Word) : (s.setReg r v).halted = s.halted := rfl
@[simp] theorem State.setReg_mem (r : Reg) (v : Word) : (s.setReg r v).mem = s.mem := rfl
@[simp] theorem State.setReg_charIn (r : Reg) (v : Word) : (s.setReg r v).charIn = s.charIn := rfl
@[simp] theorem State.setReg_intIn (r : Reg) (v : Word) : (s.setReg r v).intIn = s.intIn := rfl
@[simp] theorem State.setReg_rndIn (r : Reg) (v : Word) : (s.setReg r v).rndIn = s.rndIn := rfl
@[simp] theorem State.setReg_rndCount (r : Reg) (v : Word) : (s.setReg r v).rndCount = s.rndCount := rfl
@[simp] theorem State.setReg_events (r : Reg) (v : Word) : (s.setReg r v).events = s.events := rfl
@[simp] theorem State.setReg_cell (r : Reg) (v : Word) (a : Word) : (s.setReg r v).cell a = s.cell a := rfl

@[simp] theorem State.storeCell_pc (a v : Word) : (s.storeCell a v).pc = s.pc := rfl
@[simp] theorem State.storeCell_cc (a v : Word) : (s.storeCell a v).cc = s.cc := rfl
@[simp] theorem State.storeCell_regs (a v : Word) : (s.storeCell a v).regs = s.regs := rfl
@[simp] theorem State.storeCell_halted (a v : Word) : (s.storeCell a v).halted = s.halted := rfl
@[simp] theorem State.storeCell_mem (a v : Word) : (s.storeCell a v).mem = s.mem.write a.toNat v := rfl
@[simp] theorem State.storeCell_charIn (a v : Word) : (s.storeCell a v).charIn = s.charIn := rfl
@[simp] theorem State.storeCell_intIn (a v : Word) : (s.storeCell a v).intIn = s.intIn := rfl
@[simp] theorem State.storeCell_rndIn (a v : Word) : (s.storeCell a v).rndIn = s.rndIn := rfl
@[simp] theorem State.storeCell_rndCount (a v : Word) : (s.storeCell a v).rndCount = s.rndCount := rfl
@[simp] theorem State.storeCell_events (a v : Word) : (s.storeCell a v).events = s.events ++ [.memWrite a v] := rfl
@[simp] theorem State.storeCell_reg (a v : Word) (r : Reg) : (s.storeCell a v).reg r = s.reg r := rfl

@[simp] theorem State.beginCycle_pc : (s.beginCycle).pc = s.pc + 1 := rfl
@[simp] theorem State.beginCycle_cc : (s.beginCycle).cc = s.cc := rfl
@[simp] theorem State.beginCycle_regs : (s.beginCycle).regs = s.regs := rfl
@[simp] theorem State.beginCycle_halted : (s.beginCycle).halted = s.halted := rfl
@[simp] theorem State.beginCycle_mem : (s.beginCycle).mem = s.mem := rfl
@[simp] theorem State.beginCycle_charIn : (s.beginCycle).charIn = s.charIn := rfl
@[simp] theorem State.beginCycle_intIn : (s.beginCycle).intIn = s.intIn := rfl
@[simp] theorem State.beginCycle_rndIn : (s.beginCycle).rndIn = s.rndIn := rfl
@[simp] theorem State.beginCycle_rndCount : (s.beginCycle).rndCount = s.rndCount := rfl
@[simp] theorem State.beginCycle_events : (s.beginCycle).events = s.events ++ cycleEvents s.pc := rfl
@[simp] theorem State.beginCycle_reg (r : Reg) : (s.beginCycle).reg r = s.reg r := rfl
@[simp] theorem State.beginCycle_cell (a : Word) : (s.beginCycle).cell a = s.cell a := rfl

@[simp] theorem State.linkR7_pc : (s.linkR7).pc = s.pc := rfl
@[simp] theorem State.linkR7_cc : (s.linkR7).cc = s.cc := rfl
@[simp] theorem State.linkR7_regs : (s.linkR7).regs = s.regs.set .r7 s.pc := rfl
@[simp] theorem State.linkR7_halted : (s.linkR7).halted = s.halted := rfl
@[simp] theorem State.linkR7_mem : (s.linkR7).mem = s.mem := rfl
@[simp] theorem State.linkR7_charIn : (s.linkR7).charIn = s.charIn := rfl
@[simp] theorem State.linkR7_intIn : (s.linkR7).intIn = s.intIn := rfl
@[simp] theorem State.linkR7_rndIn : (s.linkR7).rndIn = s.rndIn := rfl
@[simp] theorem State.linkR7_rndCount : (s.linkR7).rndCount = s.rndCount := rfl
@[simp] theorem State.linkR7_events : (s.linkR7).events = s.events := rfl
@[simp] theorem State.linkR7_cell (a : Word) : (s.linkR7).cell a = s.cell a := rfl

@[simp] theorem State.takeDraw_pc : (s.takeDraw).pc = s.pc := rfl
@[simp] theorem State.takeDraw_cc : (s.takeDraw).cc = s.cc := rfl
@[simp] theorem State.takeDraw_regs : (s.takeDraw).regs = s.regs := rfl
@[simp] theorem State.takeDraw_halted : (s.takeDraw).halted = s.halted := rfl
@[simp] theorem State.takeDraw_mem : (s.takeDraw).mem = s.mem := rfl
@[simp] theorem State.takeDraw_charIn : (s.takeDraw).charIn = s.charIn := rfl
@[simp] theorem State.takeDraw_intIn : (s.takeDraw).intIn = s.intIn := rfl
@[simp] theorem State.takeDraw_rndIn : (s.takeDraw).rndIn = s.rndIn.tail := rfl
@[simp] theorem State.takeDraw_rndCount : (s.takeDraw).rndCount = s.rndCount + 1 := rfl
@[simp] theorem State.takeDraw_events : (s.takeDraw).events = s.events := rfl
@[simp] theorem State.takeDraw_reg (r : Reg) : (s.takeDraw).reg r = s.reg r := rfl
@[simp] theorem State.takeDraw_cell (a : Word) : (s.takeDraw).cell a = s.cell a := rfl

@[simp] theorem State.setCc_pc (v : Word) : (s.setCc v).pc = s.pc := rfl
@[simp] theorem State.setCc_cc (v : Word) : (s.setCc v).cc = ccOf v := rfl
@[simp] theorem State.setCc_regs (v : Word) : (s.setCc v).regs = s.regs := rfl
@[simp] theorem State.setCc_halted (v : Word) : (s.setCc v).halted = s.halted := rfl
@[simp] theorem State.setCc_mem (v : Word) : (s.setCc v).mem = s.mem := rfl
@[simp] theorem State.setCc_charIn (v : Word) : (s.setCc v).charIn = s.charIn := rfl
@[simp] theorem State.setCc_intIn (v : Word) : (s.setCc v).intIn = s.intIn := rfl
@[simp] theorem State.setCc_rndIn (v : Word) : (s.setCc v).rndIn = s.rndIn := rfl
@[simp] theorem State.setCc_rndCount (v : Word) : (s.setCc v).rndCount = s.rndCount := rfl
@[simp] theorem State.setCc_events (v : Word) : (s.setCc v).events = s.events := rfl
@[simp] theorem State.setCc_reg (v : Word) (r : Reg) : (s.setCc v).reg r = s.reg r := rfl
@[simp] theorem State.setCc_cell (v : Word) (a : Word) : (s.setCc v).cell a = s.cell a := rfl

@[simp] theorem State.writeDr_pc (r : Reg) (v : Word) : (s.writeDr r v).pc = s.pc := rfl
@[simp] theorem State.writeDr_cc (r : Reg) (v : Word) : (s.writeDr r v).cc = ccOf v := rfl
@[simp] theorem State.writeDr_regs (r : Reg) (v : Word) : (s.writeDr r v).regs = s.regs.set r v := rfl
@[simp] theorem State.writeDr_halted (r : Reg) (v : Word) : (s.writeDr r v).halted = s.halted := rfl
@[simp] theorem State.writeDr_mem (r : Reg) (v : Word) : (s.writeDr r v).mem = s.mem := rfl
@[simp] theorem State.writeDr_charIn (r : Reg) (v : Word) : (s.writeDr r v).charIn = s.charIn := rfl
@[simp] theorem State.writeDr_intIn (r : Reg) (v : Word) : (s.writeDr r v).intIn = s.intIn := rfl
@[simp] theorem State.writeDr_rndIn (r : Reg) (v : Word) : (s.writeDr r v).rndIn = s.rndIn := rfl
@[simp] theorem State.writeDr_rndCount (r : Reg) (v : Word) : (s.writeDr r v).rndCount = s.rndCount := rfl
@[simp] theorem State.writeDr_events (r : Reg) (v : Word) : (s.writeDr r v).events = s.events := rfl
@[simp] theorem State.writeDr_cell (r : Reg) (v : Word) (a : Word) : (s.writeDr r v).cell a = s.cell a := rfl

@[simp] theorem State.formPage_pc (off : BitVec 9) : (s.formPage off).pc = s.pc + 1 := rfl
@[simp] theorem State.formPage_cc (off : BitVec 9) : (s.formPage off).cc = s.cc := rfl
@[simp] theorem State.formPage_regs (off : BitVec 9) : (s.formPage off).regs = s.regs := rfl
@[simp] theorem State.formPage_halted (off : BitVec 9) : (s.formPage off).halted = s.halted := rfl
@[simp] theorem State.formPage_mem (off : BitVec 9) : (s.formPage off).mem = s.mem := rfl
@[simp] theorem State.formPage_charIn (off : BitVec 9) : (s.formPage off).charIn = s.charIn := rfl
@[simp] theorem State.formPage_intIn (off : BitVec 9) : (s.formPage off).intIn = s.intIn := rfl
@[simp] theorem State.formPage_rndIn (off : BitVec 9) : (s.formPage off).rndIn = s.rndIn := rfl
@[simp] theorem State.formPage_rndCount (off : BitVec 9) : (s.formPage off).rndCount = s.rndCount := rfl
@[simp] theorem State.formPage_events (off : BitVec 9) : (s.formPage off).events = s.events ++ cycleEvents s.pc ++ pageCrossEvents s.pc (pgaddr (s.pc + 1) off) := by
  simp [State.formPage]
@[simp] theorem State.formPage_reg (off : BitVec 9) (r : Reg) : (s.formPage off).reg r = s.reg r := rfl
@[simp] theorem State.formPage_cell (off : BitVec 9) (a : Word) : (s.formPage off).cell a = s.cell a := rfl

@[simp] theorem State.loadDr_pc (r : Reg) (ea : Word) : (s.loadDr r ea).pc = s.pc := rfl
@[simp] theorem State.loadDr_cc (r : Reg) (ea : Word) : (s.loadDr r ea).cc = ccOf (s.cell ea) := rfl
@[simp] theorem State.loadDr_regs (r : Reg) (ea : Word) : (s.loadDr r ea).regs = s.regs.set r (s.cell ea) := rfl
@[simp] theorem State.loadDr_halted (r : Reg) (ea : Word) : (s.loadDr r ea).halted = s.halted := rfl
@[simp] theorem State.loadDr_mem (r : Reg) (ea : Word) : (s.loadDr r ea).mem = s.mem := rfl
@[simp] theorem State.loadDr_charIn (r : Reg) (ea : Word) : (s.loadDr r ea).charIn = s.charIn := rfl
@[simp] theorem State.loadDr_intIn (r : Reg) (ea : Word) : (s.loadDr r ea).intIn = s.intIn := rfl
@[simp] theorem State.loadDr_rndIn (r : Reg) (ea : Word) : (s.loadDr r ea).rndIn = s.rndIn := rfl
@[simp] theorem State.loadDr_rndCount (r : Reg) (ea : Word) : (s.loadDr r ea).rndCount = s.rndCount := rfl
@[simp] theorem State.loadDr_events (r : Reg) (ea : Word) : (s.loadDr r ea).events = s.events ++ [.memRead ea] := rfl
@[simp] theorem State.loadDr_cell (r : Reg) (ea : Word) (a : Word) : (s.loadDr r ea).cell a = s.cell a := rfl

@[simp] theorem State.setReg_reg (d : Reg) (v : Word) (r : Reg) : (s.setReg d v).reg r = if r = d then v else s.reg r :=
  Regs.get_set s.regs r d v

@[simp] theorem State.linkR7_reg (r : Reg) : s.linkR7.reg r = if r = .r7 then s.pc else s.reg r :=
  Regs.get_set s.regs r .r7 s.pc

@[simp] theorem State.writeDr_reg (d : Reg) (v : Word) (r : Reg) : (s.writeDr d v).reg r = if r = d then v else s.reg r :=
  Regs.get_set s.regs r d v

@[simp] theorem State.loadDr_reg (d : Reg) (ea : Word) (r : Reg) :
    (s.loadDr d ea).reg r = if r = d then s.cell ea else s.reg r :=
  Regs.get_set s.regs r d (s.cell ea)

theorem State.reg_eq_get (r : Reg) : s.reg r = s.regs.get r := rfl

theorem State.cell_eq_read (a : Word) : s.cell a = s.mem.read a.toNat := rfl

end Fields

end Sys2Proof.Machine
end

