-- ==== Sys2Proof/Laws/Memory.lean ====
section
/-!
SUPPORT. The laws of memory: read after write, the canonical form is kept, and memories in canonical form that read
alike are equal data (20_memory.md R31, R33).
-/
namespace Sys2Proof.Machine

@[simp] theorem Memory.read_nil (a : Nat) : Memory.read [] a = 0 := rfl

theorem Memory.read_cons (b : Nat) (v : Word) (rest : Memory) (a : Nat) :
    Memory.read ((b, v) :: rest) a = if a = b then v else Memory.read rest a := rfl

theorem Memory.wfFrom_cons (lo a : Nat) (v : Word) (rest : Memory) :
    Memory.wfFrom lo ((a, v) :: rest) = true ↔ lo ≤ a ∧ a < 65536 ∧ v ≠ 0 ∧ Memory.wfFrom (a + 1) rest = true := by
  simp only [Memory.wfFrom, Bool.and_eq_true, decide_eq_true_eq, and_assoc]
  exact Iff.rfl

/-- A canonical memory from `lo` on is one from any lower address on. -/
theorem Memory.wfFrom_mono {lo lo' : Nat} {m : Memory} (h : lo' ≤ lo) (hm : Memory.wfFrom lo m = true) :
    Memory.wfFrom lo' m = true := by
  cases m with
  | nil => rfl
  | cons c rest =>
    obtain ⟨a, v⟩ := c
    rw [Memory.wfFrom_cons] at hm ⊢
    exact ⟨h.trans hm.1, hm.2⟩

/-- Below its first address a canonical memory lists nothing. -/
theorem Memory.read_below {lo : Nat} {m : Memory} (hm : Memory.wfFrom lo m = true) {a : Nat} (ha : a < lo) :
    m.read a = 0 := by
  induction m generalizing lo with
  | nil => rfl
  | cons c rest ih =>
    obtain ⟨b, v⟩ := c
    rw [Memory.wfFrom_cons] at hm
    rw [Memory.read_cons, if_neg (by omega)]
    exact ih hm.2.2.2 (by omega)

/-- Above the address space a canonical memory lists nothing. -/
theorem Memory.read_above {lo : Nat} {m : Memory} (hm : Memory.wfFrom lo m = true) {a : Nat} (ha : 65536 ≤ a) :
    m.read a = 0 := by
  induction m generalizing lo with
  | nil => rfl
  | cons c rest ih =>
    obtain ⟨b, v⟩ := c
    rw [Memory.wfFrom_cons] at hm
    rw [Memory.read_cons, if_neg (by omega)]
    exact ih hm.2.2.2

theorem Memory.read_consCell_self {a : Nat} {v : Word} {rest : Memory} (h : rest.read a = 0) :
    (Memory.consCell a v rest).read a = v := by
  unfold Memory.consCell
  split
  · subst_vars; exact h
  · simp [Memory.read_cons]

theorem Memory.read_consCell_of_ne {a b : Nat} {v : Word} {rest : Memory} (h : b ≠ a) :
    (Memory.consCell a v rest).read b = rest.read b := by
  unfold Memory.consCell
  split
  · rfl
  · rw [Memory.read_cons, if_neg h]

theorem Memory.wfFrom_consCell {lo a : Nat} {v : Word} {rest : Memory} (hlo : lo ≤ a) (ha : a < 65536)
    (h : Memory.wfFrom (a + 1) rest = true) : Memory.wfFrom lo (Memory.consCell a v rest) = true := by
  unfold Memory.consCell
  split
  · exact Memory.wfFrom_mono (by omega) h
  · rw [Memory.wfFrom_cons]; exact ⟨hlo, ha, ‹_›, h⟩

theorem Memory.wfFrom_write {lo a : Nat} {m : Memory} (v : Word) (hlo : lo ≤ a) (ha : a < 65536)
    (hm : Memory.wfFrom lo m = true) : Memory.wfFrom lo (m.write a v) = true := by
  induction m generalizing lo with
  | nil => exact Memory.wfFrom_consCell hlo ha rfl
  | cons c rest ih =>
    obtain ⟨b, w⟩ := c
    have h := (Memory.wfFrom_cons _ _ _ _).1 hm
    simp only [Memory.write]
    split
    · exact Memory.wfFrom_consCell hlo ha ((Memory.wfFrom_cons _ _ _ _).2 ⟨by omega, h.2⟩)
    · split
      · subst_vars; exact Memory.wfFrom_consCell hlo ha h.2.2.2
      · rw [Memory.wfFrom_cons]; exact ⟨h.1, h.2.1, h.2.2.1, ih (by omega) h.2.2.2⟩

/-- A write in the address space keeps the canonical form. -/
theorem Memory.wf_write {m : Memory} {a : Nat} (v : Word) (ha : a < 65536) (hm : m.wf = true) : (m.write a v).wf = true :=
  Memory.wfFrom_write v (Nat.zero_le a) ha hm

theorem Memory.wf_reset : State.reset.mem.wf = true := rfl

/-- A write leaves every other cell alone. It needs no canonical form. -/
theorem Memory.read_write_of_ne {m : Memory} {a b : Nat} (v : Word) (h : b ≠ a) : (m.write a v).read b = m.read b := by
  induction m with
  | nil => exact Memory.read_consCell_of_ne h
  | cons c rest ih =>
    obtain ⟨k, w⟩ := c
    simp only [Memory.write]
    split
    · exact Memory.read_consCell_of_ne h
    · split
      · subst_vars; rw [Memory.read_consCell_of_ne h, Memory.read_cons, if_neg h]
      · rw [Memory.read_cons, Memory.read_cons, ih]

theorem Memory.read_writeFrom_self {lo : Nat} {m : Memory} {a : Nat} (v : Word) (hm : Memory.wfFrom lo m = true) :
    (m.write a v).read a = v := by
  induction m generalizing lo with
  | nil => exact Memory.read_consCell_self rfl
  | cons c rest ih =>
    obtain ⟨b, w⟩ := c
    have h := (Memory.wfFrom_cons _ _ _ _).1 hm
    simp only [Memory.write]
    split
    · exact Memory.read_consCell_self (Memory.read_below ((Memory.wfFrom_cons b _ _ _).2 ⟨le_refl b, h.2⟩) ‹_›)
    · split
      · subst_vars; exact Memory.read_consCell_self (Memory.read_below h.2.2.2 (by omega))
      · rw [Memory.read_cons, if_neg (by omega)]; exact ih h.2.2.2

/-- A read after a write to the same cell of a canonical memory gives the value written. -/
theorem Memory.read_write_self {m : Memory} {a : Nat} (v : Word) (hm : m.wf = true) : (m.write a v).read a = v :=
  Memory.read_writeFrom_self v hm

theorem Memory.extFrom {lo : Nat} {m k : Memory} (hm : Memory.wfFrom lo m = true) (hk : Memory.wfFrom lo k = true)
    (h : ∀ a, m.read a = k.read a) : m = k := by
  induction m generalizing lo k with
  | nil =>
    cases k with
    | nil => rfl
    | cons c rest =>
      obtain ⟨b, w⟩ := c
      have hb := (Memory.wfFrom_cons _ _ _ _).1 hk
      have := h b
      simp [Memory.read_cons] at this
      exact absurd this.symm hb.2.2.1
  | cons c rest ih =>
    obtain ⟨a, v⟩ := c
    have ha := (Memory.wfFrom_cons _ _ _ _).1 hm
    cases k with
    | nil =>
      have := h a
      simp [Memory.read_cons] at this
      exact absurd this ha.2.2.1
    | cons d rest' =>
      obtain ⟨b, w⟩ := d
      have hb := (Memory.wfFrom_cons _ _ _ _).1 hk
      have hab : a = b := by
        rcases Nat.lt_trichotomy a b with hlt | heq | hgt
        · have := h a
          rw [Memory.read_cons, if_pos rfl, Memory.read_below ((Memory.wfFrom_cons b _ _ _).2 ⟨le_refl b, hb.2⟩) hlt] at this
          exact absurd this ha.2.2.1
        · exact heq
        · have := h b
          rw [Memory.read_cons b w, if_pos rfl,
            Memory.read_below ((Memory.wfFrom_cons a _ _ _).2 ⟨le_refl a, ha.2⟩) hgt] at this
          exact absurd this.symm hb.2.2.1
      subst hab
      have hv : v = w := by have := h a; simpa [Memory.read_cons] using this
      subst hv
      have hr : rest = rest' := by
        refine ih ha.2.2.2 hb.2.2.2 fun x => ?_
        by_cases hx : x = a
        · subst hx
          rw [Memory.read_below ha.2.2.2 (by omega), Memory.read_below hb.2.2.2 (by omega)]
        · have := h x
          rwa [Memory.read_cons, Memory.read_cons, if_neg hx, if_neg hx] at this
      rw [hr]

/-- Every entry of memories is below 65536, so a 16-bit address is always in the address space (20_memory.md R32). -/
theorem Memory.address_in_range (a : Word) : a.toNat < 65536 := a.isLt

/-- A store keeps the canonical form of the state's memory. -/
theorem State.storeCell_wf {s : State} (a v : Word) (h : s.mem.wf = true) : (s.storeCell a v).mem.wf = true :=
  Memory.wf_write v a.isLt h

/-- What the cells read as after a store. -/
theorem State.storeCell_cell {s : State} (a v b : Word) (h : s.mem.wf = true) :
    (s.storeCell a v).cell b = if b = a then v else s.cell b := by
  unfold State.cell
  split
  · subst_vars; exact Memory.read_write_self v h
  · exact Memory.read_write_of_ne v fun hb => ‹¬_› (BitVec.eq_of_toNat_eq hb)

theorem Memory.writeCells_wf {m : Memory} (cells : List (Word × Word)) (h : m.wf = true) : (writeCells m cells).wf = true := by
  induction cells generalizing m with
  | nil => exact h
  | cons c rest ih => exact ih (Memory.wf_write _ c.1.isLt h)

end Sys2Proof.Machine
end

