-- ==== Sys2Proof/Laws/Operations.lean ====
section
/-!
SUPPORT. What each shared operation can do, said once: the parameters' values, addresses, the scan of PUTS, the flag, the
events, the order of register writes.
-/
namespace Sys2Proof.Machine

@[simp] theorem params_eaOverflow : params.eaOverflow = .fault := rfl
@[simp] theorem params_jsrrR7Order : params.jsrrR7Order = .linkFirst := rfl
@[simp] theorem params_putsTerminator : params.putsTerminator = .lowByteZero := rfl
@[simp] theorem params_innOutOfRange : params.innOutOfRange = .truncate := rfl
@[simp] theorem params_innErrorFlag : params.innErrorFlag = .fromR0 := rfl
@[simp] theorem params_brPageCrossWhenNotTaken : params.brPageCrossWhenNotTaken = false := rfl
@[simp] theorem params_pcReset : params.pcReset = 0 := rfl

/-! ### Addresses -/

/-- In range, the address is used whatever the parameters. -/
theorem withAddress_of_lt (p : Params) (ia : Word) {n : Nat} (use : Word → Out) (h : n < 65536) :
    withAddress p ia n use = use (BitVec.ofNat 16 n) := by simp [withAddress, h]

/-- Above 65535, the step is the fault. -/
theorem withAddress_of_ge (ia : Word) {n : Nat} (use : Word → Out) (h : 65536 ≤ n) :
    withAddress params ia n use = .fault (.addressOutOfRange ia n) := by
  simp [withAddress, Nat.not_lt.2 h]

/-- Everything withAddress can do under the model's parameters. -/
theorem withAddress_cases (ia : Word) (n : Nat) (use : Word → Out) :
    (n < 65536 ∧ withAddress params ia n use = use (BitVec.ofNat 16 n)) ∨
    (65536 ≤ n ∧ withAddress params ia n use = .fault (.addressOutOfRange ia n)) := by
  rcases Nat.lt_or_ge n 65536 with h | h
  · exact .inl ⟨h, withAddress_of_lt _ _ _ h⟩
  · exact .inr ⟨h, withAddress_of_ge _ _ h⟩

/-- What an indexed address gives when it answers a next state. -/
theorem withAddress_next {ia : Word} {n : Nat} {use : Word → Out} {t : State}
    (h : withAddress params ia n use = .next t) : n < 65536 ∧ use (BitVec.ofNat 16 n) = .next t := by
  rcases withAddress_cases ia n use with ⟨hn, e⟩ | ⟨_, e⟩
  · exact ⟨hn, e ▸ h⟩
  · rw [e] at h; cases h

/-- What an indexed address gives when it faults, for a use that does not. -/
theorem withAddress_fault {ia : Word} {n : Nat} {g : Word → State} {f : Fault}
    (h : withAddress params ia n (fun a => .next (g a)) = .fault f) : 65536 ≤ n ∧ f = .addressOutOfRange ia n := by
  rcases withAddress_cases ia n (fun a => .next (g a)) with ⟨_, e⟩ | ⟨hn, e⟩
  · rw [e] at h; cases h
  · rw [e] at h; exact ⟨hn, by cases h; rfl⟩

theorem indexSum_eq (base : Word) (idx : BitVec 6) : indexSum base idx = base.toNat + idx.toNat := rfl

/-! ### The scan of PUTS -/

/-- What the scan of PUTS answers: the codes of the cells before the first one that ends the string. -/
theorem scanString_eq_some {t : PutsTerminator} {m : Memory} {cells : Nat} {a : Word} {codes : List Byte} :
    scanString t m cells a = some codes ↔
      codes.length < cells ∧
      (∀ k, k < codes.length → endsString t (m.read (a + BitVec.ofNat 16 k).toNat) = false ∧
        codes[k]? = some (lowByte (m.read (a + BitVec.ofNat 16 k).toNat))) ∧
      endsString t (m.read (a + BitVec.ofNat 16 codes.length).toNat) = true := by
  induction cells generalizing a codes with
  | zero => simp [scanString]
  | succ cells ih =>
    have shift : ∀ k : Nat, a + 1 + BitVec.ofNat 16 k = a + BitVec.ofNat 16 (k + 1) := by
      intro k; rw [BitVec.add_assoc]; congr 1; apply BitVec.eq_of_toNat_eq; simp [Nat.add_comm]
    unfold scanString
    cases codes with
    | nil =>
      simp only [List.length_nil, Nat.zero_lt_succ, true_and, Nat.not_lt_zero, false_implies, implies_true]
      rw [show a + BitVec.ofNat 16 0 = a by simp]
      split
      · simp_all
      · rename_i h
        split <;> simp_all
    | cons c rest =>
      split
      · rename_i h
        constructor
        · simp
        · rintro ⟨_, h2, _⟩
          have := (h2 0 (by simp)).1
          simp [h] at this
      · rename_i h
        have key := @ih (a + 1) rest
        simp only [shift] at key
        constructor
        · intro e
          split at e
          · rename_i codes' he
            simp only [Option.some.injEq, List.cons.injEq] at e
            obtain ⟨rfl, rfl⟩ := e
            obtain ⟨h1, h2, h3⟩ := key.1 he
            refine ⟨by simpa using h1, fun k hk => ?_, h3⟩
            cases k with
            | zero => simpa using h
            | succ k => simpa using h2 k (by simpa using hk)
          · cases e
        · rintro ⟨h1, h2, h3⟩
          have hs := key.2 ⟨by simpa using h1, fun k hk => by simpa using h2 (k + 1) (by simpa using hk), h3⟩
          rw [hs]
          have := (h2 0 (by simp)).2
          simp at this
          simp [this]

/-- What it means that the scan of PUTS runs out: none of the cells ends the string. -/
theorem scanString_eq_none {t : PutsTerminator} {m : Memory} {cells : Nat} {a : Word} :
    scanString t m cells a = none ↔ ∀ k, k < cells → endsString t (m.read (a + BitVec.ofNat 16 k).toNat) = false := by
  induction cells generalizing a with
  | zero => simp [scanString]
  | succ cells ih =>
    have shift : ∀ k : Nat, a + 1 + BitVec.ofNat 16 k = a + BitVec.ofNat 16 (k + 1) := by
      intro k; rw [BitVec.add_assoc]; congr 1; apply BitVec.eq_of_toNat_eq; simp [Nat.add_comm]
    have key := @ih (a + 1)
    simp only [shift] at key
    unfold scanString
    split
    · rename_i h
      simp only [reduceCtorEq, false_iff, not_forall]
      exact ⟨0, by simp, by simp [h]⟩
    · rename_i h
      constructor
      · intro e k hk
        split at e
        · cases e
        · rename_i hn
          cases k with
          | zero => simpa using h
          | succ k => exact key.1 hn k (by omega)
      · intro hall
        rw [key.2 fun k hk => hall (k + 1) (by omega)]

/-- The cells PUTS reads. -/
theorem scanReads_eq (count : Nat) (a : Word) :
    scanReads count a = (List.range count).map fun k => Event.memRead (a + BitVec.ofNat 16 k) := by
  induction count generalizing a with
  | zero => rfl
  | succ count ih =>
    rw [scanReads, ih, List.range_succ_eq_map, List.map_cons, List.map_map]
    congr 1
    · simp
    · apply List.map_congr_left
      intro k _
      simp only [Function.comp, Event.memRead.injEq]
      rw [BitVec.add_assoc]; congr 1; apply BitVec.eq_of_toNat_eq; simp [Nat.add_comm]

theorem endsString_lowByteZero (w : Word) : endsString .lowByteZero w = true ↔ w.toNat % 256 = 0 := by
  simp [endsString, lowByte, ← BitVec.toNat_inj]

/-! ### Flags -/

/-- The model's flag function is the spec's classification (10_state.md R17). -/
theorem ccOf_eq_flagOf (v : Word) : ccOf v = flagOf v := by
  unfold ccOf flagOf signed
  have hv := v.isLt
  have h0 : v = 0 ↔ v.toNat = 0 := by rw [← BitVec.toNat_inj]; rfl
  rw [BitVec.toInt_eq_toNat_cond]
  simp only [h0]
  split_ifs <;> first | rfl | omega

/-! ### Registers: the order of two writes -/

theorem Regs.set_set (x : Regs) (d : Reg) (v w : Word) : (x.set d v).set d w = x.set d w := by cases d <;> rfl

theorem Regs.set_comm (x : Regs) {c d : Reg} (v w : Word) (h : c ≠ d) :
    (x.set c v).set d w = (x.set d w).set c v := by cases c <;> cases d <;> first | rfl | exact absurd rfl h

/-! ### Events -/

theorem cycleEvents_eq (ia : Word) : cycleEvents ia = fetchReport ia := by
  have : ia = 0xFFFF ↔ ia.toNat = 65535 := by rw [← BitVec.toNat_inj]; rfl
  unfold cycleEvents fetchReport
  simp only [this]
  split <;> rfl

@[simp] theorem State.outputLog_emit (s : State) (es : List Event) :
    (s.emit es).outputLog = s.outputLog ++ es.filter Event.isOutput := List.filter_append ..

@[simp] theorem State.diagnosticLog_emit (s : State) (es : List Event) :
    (s.emit es).diagnosticLog = s.diagnosticLog ++ es.filterMap Event.diagnostic? := List.filterMap_append ..

/-- A longer history has longer logs. -/
theorem State.logs_prefix {s t : State} (h : s.events <+: t.events) :
    s.outputLog <+: t.outputLog ∧ s.diagnosticLog <+: t.diagnosticLog := by
  obtain ⟨es, he⟩ := h
  refine ⟨⟨es.filter Event.isOutput, ?_⟩, ⟨es.filterMap Event.diagnostic?, ?_⟩⟩
  · rw [State.outputLog, State.outputLog, ← he, List.filter_append]
  · rw [State.diagnosticLog, State.diagnosticLog, ← he, List.filterMap_append]

end Sys2Proof.Machine
end

