-- ==== Sys2Proof/Laws/Exec.lean ====
section
/-!
SUPPORT. What each instruction can do, said once: the state it answers, or the address it faults on. Proofs over all
instructions take these with one case per constructor of Instr.
-/
namespace Sys2Proof.Machine

section Plain
variable (s : State)

theorem exec_add (dr sr1 sr2 : Reg) :
    exec (.add dr sr1 sr2) s = .next ((s.beginCycle.emit (overflowEvents (s.reg sr1) (s.reg sr2))).writeDr dr (s.reg sr1 + s.reg sr2)) := rfl

theorem exec_addi (dr sr1 : Reg) (imm : BitVec 5) :
    exec (.addi dr sr1 imm) s = .next ((s.beginCycle.emit (overflowEvents (s.reg sr1) (immOperand imm))).writeDr dr (s.reg sr1 + immOperand imm)) := rfl

theorem exec_and (dr sr1 sr2 : Reg) :
    exec (.and dr sr1 sr2) s = .next (s.beginCycle.writeDr dr (s.reg sr1 &&& s.reg sr2)) := rfl

theorem exec_andi (dr sr1 : Reg) (imm : BitVec 5) :
    exec (.andi dr sr1 imm) s = .next (s.beginCycle.writeDr dr (s.reg sr1 &&& immOperand imm)) := rfl

theorem exec_not (dr sr : Reg) :
    exec (.not dr sr) s = .next (s.beginCycle.writeDr dr (~~~(s.reg sr))) := rfl

theorem exec_ld (dr : Reg) (off : BitVec 9) :
    exec (.ld dr off) s = .next ((s.formPage off).loadDr dr (pgaddr (s.pc + 1) off)) := rfl

theorem exec_st (sr : Reg) (off : BitVec 9) :
    exec (.st sr off) s = .next ((s.formPage off).storeCell (pgaddr (s.pc + 1) off) (s.reg sr)) := rfl

theorem exec_ldi (dr : Reg) (off : BitVec 9) :
    exec (.ldi dr off) s = .next (((s.formPage off).emit [.memRead (pgaddr (s.pc + 1) off)]).loadDr dr (s.cell (pgaddr (s.pc + 1) off))) := rfl

theorem exec_sti (sr : Reg) (off : BitVec 9) :
    exec (.sti sr off) s = .next (((s.formPage off).emit [.memRead (pgaddr (s.pc + 1) off)]).storeCell (s.cell (pgaddr (s.pc + 1) off)) (s.reg sr)) := rfl

theorem exec_lea (dr : Reg) (off : BitVec 9) :
    exec (.lea dr off) s = .next ((s.formPage off).writeDr dr (pgaddr (s.pc + 1) off)) := rfl

theorem exec_br (n z p : Bool) (off : BitVec 9) :
    exec (.br n z p off) s = .next (if branchTaken n z p s.cc then (s.formPage off).jump (pgaddr (s.pc + 1) off) else s.beginCycle) := by
  show brWith params n z p off s = _
  unfold brWith
  split <;> simp_all

theorem exec_jsr (off : BitVec 9) :
    exec (.jsr off) s = .next ((s.formPage off).linkR7.jump (pgaddr (s.pc + 1) off)) := rfl

theorem exec_jmp (off : BitVec 9) :
    exec (.jmp off) s = .next ((s.formPage off).jump (pgaddr (s.pc + 1) off)) := rfl

theorem exec_ret :
    exec .ret s = .next (s.beginCycle.jump (s.reg .r7)) := rfl

theorem exec_dbug :
    exec .dbug s = .next (s.beginCycle.emit [.diag .debugDump]) := rfl

theorem exec_trapOut :
    exec .trapOut s = .next ((s.beginCycle.emit [.outChar (lowByte (s.reg .r0))]).linkR7) := rfl

theorem exec_trapHalt :
    exec .trapHalt s = .next (State.linkR7 { s.beginCycle with halted := true }) := rfl

theorem exec_trapOutn :
    exec .trapOutn s = .next ((s.beginCycle.emit [.outDecimal (signed (s.reg .r0))]).linkR7) := rfl

theorem exec_trapRnd :
    exec .trapRnd s = .next ((s.beginCycle.takeDraw.writeDr .r0 s.nextDraw).linkR7) := rfl

theorem exec_trapUnsupported (v : BitVec 8) :
    exec (.trapUnsupported v) s = .next ((s.beginCycle.emit [.diag (.unsupportedTrap v)]).linkR7) := rfl

end Plain

section Indexed
variable (s : State) (baser : Reg) (idx : BitVec 6)

/-- The base of JSRR: the link just written when it is R7 (40_control_transfer.md R73). -/
theorem jsrrBase_eq : jsrrBase params baser s = if baser = .r7 then s.pc + 1 else s.reg baser :=
  State.linkR7_reg s.beginCycle baser

theorem exec_ldr (dr : Reg) :
    exec (.ldr dr baser idx) s =
      if indexSum (s.reg baser) idx < 65536 then
        .next (s.beginCycle.loadDr dr (BitVec.ofNat 16 (indexSum (s.reg baser) idx)))
      else .fault (.addressOutOfRange s.pc (indexSum (s.reg baser) idx)) := by
  simp only [exec, execLdr, ldrWith, withAddress, params_eaOverflow]

theorem exec_str (sr : Reg) :
    exec (.str sr baser idx) s =
      if indexSum (s.reg baser) idx < 65536 then
        .next (s.beginCycle.storeCell (BitVec.ofNat 16 (indexSum (s.reg baser) idx)) (s.reg sr))
      else .fault (.addressOutOfRange s.pc (indexSum (s.reg baser) idx)) := by
  simp only [exec, execStr, strWith, withAddress, params_eaOverflow]

theorem exec_jmpr :
    exec (.jmpr baser idx) s =
      if indexSum (s.reg baser) idx < 65536 then
        .next (s.beginCycle.jump (BitVec.ofNat 16 (indexSum (s.reg baser) idx)))
      else .fault (.addressOutOfRange s.pc (indexSum (s.reg baser) idx)) := by
  simp only [exec, execJmpr, jmprWith, withAddress, params_eaOverflow]

theorem exec_jsrr :
    exec (.jsrr baser idx) s =
      if indexSum (jsrrBase params baser s) idx < 65536 then
        .next (s.beginCycle.linkR7.jump (BitVec.ofNat 16 (indexSum (jsrrBase params baser s) idx)))
      else .fault (.addressOutOfRange s.pc (indexSum (jsrrBase params baser s) idx)) := by
  simp only [exec, execJsrr, jsrrWith, withAddress, params_eaOverflow]

end Indexed

section Traps
variable (s : State)

theorem exec_trapPuts_some {codes : List Byte}
    (h : scanString .lowByteZero s.mem (65536 - (s.reg .r0).toNat) (s.reg .r0) = some codes) :
    exec .trapPuts s =
      .next ((s.beginCycle.emit (scanReads (codes.length + 1) (s.reg .r0) ++ [.outString codes])).linkR7) := by
  simp [exec, execTrapPuts, putsWith, scanLimit, h]

theorem exec_trapPuts_none (h : scanString .lowByteZero s.mem (65536 - (s.reg .r0).toNat) (s.reg .r0) = none) :
    exec .trapPuts s = .fault (.addressOutOfRange s.pc 65536) := by
  simp [exec, execTrapPuts, putsWith, scanLimit, h]

theorem exec_trapIn_nil (h : s.charIn = []) : exec .trapIn s = .next s := by simp [exec, execTrapIn, h]

theorem exec_trapIn_cons {c : Nat} {rest : List Nat} (h : s.charIn = c :: rest) :
    exec .trapIn s =
      .next ((State.writeDr (State.emit { s.beginCycle with charIn := rest } [.inChar c]) .r0 (trunc16 c)).linkR7) := by
  simp [exec, execTrapIn, h]

theorem exec_trapInn_nil (h : s.intIn = []) : exec .trapInn s = .next s := by simp [exec, execTrapInn, innWith, h]

theorem exec_trapInn_cons {r : IntAnswer} {rest : List IntAnswer} (h : s.intIn = r :: rest) :
    exec .trapInn s =
      .next (State.takeInt params r (State.emit { s.beginCycle with intIn := rest } [.inInt r])).linkR7 := by
  simp [exec, execTrapInn, innWith, h]

/-- What INN does with an answer, under the model's parameters (43_trap_and_debug.md R106). -/
theorem takeInt_number (k : Int) :
    State.takeInt params (.number k) s =
      (s.emit (if -32768 ≤ k ∧ k ≤ 32767 then [] else [.diag (.inputError (some k))])).writeDr .r0 (trunc16 k) := by
  by_cases h : -32768 ≤ k ∧ k ≤ 32767
  · simp [State.takeInt, inSigned16, h, State.emit]
  · have h' : inSigned16 k = false := by simpa [inSigned16] using h
    simp [State.takeInt, h', h]

theorem takeInt_malformed :
    State.takeInt params .malformed s = (s.emit [.diag (.inputError none)]).setCc (s.reg .r0) := rfl

end Traps

end Sys2Proof.Machine
end

