-- ==== Sys2Proof/Laws/Parametric.lean ====
section
/-!
SUPPORT. The machine with parameters is the machine, at the spec's defaults; and the equations of the driving loop.
-/
namespace Sys2Proof.Machine

theorem execWith_params (i : Instr) (s : State) : execWith params i s = exec i s := by cases i <;> rfl

theorem stepWith_default (s : State) : stepWith params fieldLayout s = step s := by
  simp only [stepWith, execWith_params]
  rfl

theorem driveWith_default (limit : Nat) (s : State) : driveWith params fieldLayout limit s = drive limit s := by
  rw [driveWith, drive, funext stepWith_default]

/-- The loop on a Halted engine: the run has ended, whatever the limit. -/
theorem driveBy_halted (oneStep : State → Out) (limit : Nat) {s : State} (h : s.halted = true) :
    driveBy oneStep limit s = .ended s := by
  cases limit <;> simp [driveBy, h]

theorem resetWith_params : State.resetWith params = State.reset := rfl

theorem launchWith_params (file : List Line) : launchWith params file = launch file := rfl

end Sys2Proof.Machine
end

