-- ==== Sys2Proof/Laws/PerInstr.lean ====
section
/-!
SUPPORT. The per-instruction families of LAWS.json.

EncodesInRow: the canonical word of an instruction lies in its row of the opcode map (30_encoding.md R60), whatever its
operands. One lemma per constructor of Instr.
-/
namespace Sys2Proof.Laws

/-- The instruction's canonical word, under the mask of its row, is the row's match (30_encoding.md R60). -/
def EncodesInRow.Statement (i : Instr) : Prop := encode i &&& (rowMatchMask i).2 = (rowMatchMask i).1

/-- What the row's mask keeps of a word of format OPR (30_encoding.md R52). -/
theorem formatOpr_and_mask (op : BitVec 4) (dr sr1 sr2 : Reg) :
    encodeOpr fieldLayout op dr sr1 sr2 &&& 0xF020 = placeOpcode fieldLayout op &&& 0xF020 := by
  simp (disch := decide) [encodeOpr, placeOpcode, fieldLayout, or_and, placeField_and_eq_zero]

/-- What the row's mask keeps of a word of format OPI (30_encoding.md R52). -/
theorem formatOpi_and_mask (op : BitVec 4) (dr sr1 : Reg) (imm : BitVec 5) :
    encodeOpi fieldLayout op dr sr1 imm &&& 0xF020 = (placeOpcode fieldLayout op ||| placeBit true fieldLayout.mode) &&& 0xF020 := by
  simp (disch := decide) [encodeOpi, placeOpcode, placeBit, fieldLayout, or_and, placeField_and_eq_zero]

/-- What the row's mask keeps of a word of format PG (30_encoding.md R52). -/
theorem formatPg_and_mask (op : BitVec 4) (r : Reg) (off : BitVec 9) :
    encodePg fieldLayout op r off &&& 0xF000 = placeOpcode fieldLayout op &&& 0xF000 := by
  simp (disch := decide) [encodePg, placeOpcode, fieldLayout, or_and, placeField_and_eq_zero]

/-- What the row's mask keeps of a word of format JPG (30_encoding.md R52). -/
theorem formatJpg_and_mask (op : BitVec 4) (link : Bool) (off : BitVec 9) :
    encodeJpg fieldLayout op link off &&& 0xF800 = (placeOpcode fieldLayout op ||| placeBit link fieldLayout.link) &&& 0xF800 := by
  simp (disch := decide) [encodeJpg, placeOpcode, placeBit, fieldLayout, or_and, placeField_and_eq_zero]

/-- What the row's mask keeps of a word of format IDX (30_encoding.md R52). -/
theorem formatIdx_and_mask (op : BitVec 4) (r baser : Reg) (idx : BitVec 6) :
    encodeIdx fieldLayout op r baser idx &&& 0xF000 = placeOpcode fieldLayout op &&& 0xF000 := by
  simp (disch := decide) [encodeIdx, placeOpcode, fieldLayout, or_and, placeField_and_eq_zero]

/-- What the row's mask keeps of a word of format JIDX (30_encoding.md R52). -/
theorem formatJidx_and_mask (op : BitVec 4) (link : Bool) (baser : Reg) (idx : BitVec 6) :
    encodeJidx fieldLayout op link baser idx &&& 0xF800 = (placeOpcode fieldLayout op ||| placeBit link fieldLayout.link) &&& 0xF800 := by
  simp (disch := decide) [encodeJidx, placeOpcode, placeBit, fieldLayout, or_and, placeField_and_eq_zero]

/-- What the row's mask keeps of a word of format NOT (30_encoding.md R52). -/
theorem formatNot_and_mask (op : BitVec 4) (dr sr : Reg) :
    encodeNot fieldLayout op dr sr &&& 0xF000 = placeOpcode fieldLayout op &&& 0xF000 := by
  simp (disch := decide) [encodeNot, placeOpcode, fieldLayout, or_and, placeField_and_eq_zero]

/-- What the row's mask keeps of a word of format TRAP (30_encoding.md R52). -/
theorem formatTrap_and_mask (vector : BitVec 8) :
    encodeTrap fieldLayout vector &&& 0xF000 = placeOpcode fieldLayout 15 &&& 0xF000 := by
  simp (disch := decide) [encodeTrap, placeOpcode, fieldLayout, or_and, placeField_and_eq_zero]

/-- What the row's mask keeps of a word of format BR (30_encoding.md R52). -/
theorem formatBr_and_mask (n z p : Bool) (off : BitVec 9) :
    encodeBr fieldLayout n z p off &&& 0xF000 = placeOpcode fieldLayout 0 &&& 0xF000 := by
  simp (disch := decide) [encodeBr, placeOpcode, placeBit, fieldLayout, or_and, placeField_and_eq_zero]

theorem EncodesInRow.br (n z p : Bool) (off : BitVec 9) : EncodesInRow.Statement (.br n z p off) :=
  (formatBr_and_mask n z p off).trans rfl

theorem EncodesInRow.add (dr sr1 sr2 : Reg) : EncodesInRow.Statement (.add dr sr1 sr2) :=
  (formatOpr_and_mask 1 dr sr1 sr2).trans rfl

theorem EncodesInRow.addi (dr sr1 : Reg) (imm : BitVec 5) : EncodesInRow.Statement (.addi dr sr1 imm) :=
  (formatOpi_and_mask 1 dr sr1 imm).trans rfl

theorem EncodesInRow.ld (dr : Reg) (off : BitVec 9) : EncodesInRow.Statement (.ld dr off) :=
  (formatPg_and_mask 2 dr off).trans rfl

theorem EncodesInRow.st (sr : Reg) (off : BitVec 9) : EncodesInRow.Statement (.st sr off) :=
  (formatPg_and_mask 3 sr off).trans rfl

theorem EncodesInRow.jsr (off : BitVec 9) : EncodesInRow.Statement (.jsr off) :=
  (formatJpg_and_mask 4 true off).trans rfl

theorem EncodesInRow.jmp (off : BitVec 9) : EncodesInRow.Statement (.jmp off) :=
  (formatJpg_and_mask 4 false off).trans rfl

theorem EncodesInRow.and (dr sr1 sr2 : Reg) : EncodesInRow.Statement (.and dr sr1 sr2) :=
  (formatOpr_and_mask 5 dr sr1 sr2).trans rfl

theorem EncodesInRow.andi (dr sr1 : Reg) (imm : BitVec 5) : EncodesInRow.Statement (.andi dr sr1 imm) :=
  (formatOpi_and_mask 5 dr sr1 imm).trans rfl

theorem EncodesInRow.ldr (dr baser : Reg) (idx : BitVec 6) : EncodesInRow.Statement (.ldr dr baser idx) :=
  (formatIdx_and_mask 6 dr baser idx).trans rfl

theorem EncodesInRow.str (sr baser : Reg) (idx : BitVec 6) : EncodesInRow.Statement (.str sr baser idx) :=
  (formatIdx_and_mask 7 sr baser idx).trans rfl

theorem EncodesInRow.dbug : EncodesInRow.Statement .dbug := rfl

theorem EncodesInRow.not (dr sr : Reg) : EncodesInRow.Statement (.not dr sr) :=
  (formatNot_and_mask 9 dr sr).trans rfl

theorem EncodesInRow.ldi (dr : Reg) (off : BitVec 9) : EncodesInRow.Statement (.ldi dr off) :=
  (formatPg_and_mask 10 dr off).trans rfl

theorem EncodesInRow.sti (sr : Reg) (off : BitVec 9) : EncodesInRow.Statement (.sti sr off) :=
  (formatPg_and_mask 11 sr off).trans rfl

theorem EncodesInRow.jsrr (baser : Reg) (idx : BitVec 6) : EncodesInRow.Statement (.jsrr baser idx) :=
  (formatJidx_and_mask 12 true baser idx).trans rfl

theorem EncodesInRow.jmpr (baser : Reg) (idx : BitVec 6) : EncodesInRow.Statement (.jmpr baser idx) :=
  (formatJidx_and_mask 12 false baser idx).trans rfl

theorem EncodesInRow.ret : EncodesInRow.Statement .ret := rfl

theorem EncodesInRow.lea (dr : Reg) (off : BitVec 9) : EncodesInRow.Statement (.lea dr off) :=
  (formatPg_and_mask 14 dr off).trans rfl

theorem EncodesInRow.trapOut : EncodesInRow.Statement .trapOut := rfl

theorem EncodesInRow.trapPuts : EncodesInRow.Statement .trapPuts := rfl

theorem EncodesInRow.trapIn : EncodesInRow.Statement .trapIn := rfl

theorem EncodesInRow.trapHalt : EncodesInRow.Statement .trapHalt := rfl

theorem EncodesInRow.trapOutn : EncodesInRow.Statement .trapOutn := rfl

theorem EncodesInRow.trapInn : EncodesInRow.Statement .trapInn := rfl

theorem EncodesInRow.trapRnd : EncodesInRow.Statement .trapRnd := rfl

theorem EncodesInRow.trapUnsupported (v : BitVec 8) : EncodesInRow.Statement (.trapUnsupported v) :=
  (formatTrap_and_mask v).trans rfl

end Sys2Proof.Laws
end

