-- ==== Sys2Proof/Tests/Slice0.lean ====
section
/-!
SUPPORT. Small tests: the well-formedness smoke test, decoding of words written out from 30_encoding.md, single steps with
the expected results of 95_test_vectors.md (vectors V, loader sessions L), and for every statement with hypotheses a
witness that meets them all. Nothing here is a claim.
-/
namespace Sys2Proof.Tests
open Sys2Proof.Machine

/-! ### Helpers -/

/-- A start state of 95_test_vectors.md section 1: `pc = ia`, `M[ia] = ir`, the flag, and the registers and cells named. -/
def start (ia ir : Word) (cc : Cc) (regs : List (Reg × Word)) (cells : List (Word × Word)) : State :=
  { State.reset with
    pc := ia
    cc := cc
    regs := regs.foldl (fun x p => x.set p.1 p.2) State.reset.regs
    mem := (writeCells [] cells).write ia.toNat ir }

/-- Did one step reach this pc and flag, these registers and cells, and record these events after the fetch? -/
def ran (o : Out) (pc : Word) (cc : Cc) (regs : List (Reg × Word)) (cells : List (Word × Word)) (events : List Event) :
    Bool :=
  match o with
  | .next t =>
    decide (t.pc = pc) && decide (t.cc = cc) && regs.all (fun p => decide (t.reg p.1 = p.2)) &&
      cells.all (fun p => decide (t.cell p.1 = p.2)) && decide (t.events.tail = events)
  | .fault _ => false
  | .refused _ => false

/-- Did one step fault at `ia` on this address? -/
def faultedOn (o : Out) (ia : Word) (a : Nat) : Bool :=
  match o with
  | .fault f => decide (f = .addressOutOfRange ia a)
  | .next _ => false
  | .refused _ => false

/-- Did one step leave the state as it was? -/
def heldAt (s : State) : Bool :=
  match step s with
  | .next t => decide (t = s)
  | .fault _ => false
  | .refused _ => false

/-! ### Well-formedness: an unsupported TRAP carries none of the seven supported vectors (43_trap_and_debug.md R100) -/

theorem test_wf_refuses_vector_21 : (Instr.trapUnsupported 0x21).wellFormed = false := by decide
theorem test_wf_refuses_vector_22 : (Instr.trapUnsupported 0x22).wellFormed = false := by decide
theorem test_wf_refuses_vector_23 : (Instr.trapUnsupported 0x23).wellFormed = false := by decide
theorem test_wf_refuses_vector_25 : (Instr.trapUnsupported 0x25).wellFormed = false := by decide
theorem test_wf_refuses_vector_31 : (Instr.trapUnsupported 0x31).wellFormed = false := by decide
theorem test_wf_refuses_vector_33 : (Instr.trapUnsupported 0x33).wellFormed = false := by decide
theorem test_wf_refuses_vector_43 : (Instr.trapUnsupported 0x43).wellFormed = false := by decide
theorem test_wf_accepts_vector_24 : (Instr.trapUnsupported 0x24).wellFormed = true := by decide

/-! ### Decoding: every constructor, from a word written bit by bit from 30_encoding.md R51, R52, R60 -/

theorem test_decode_br : decode 0b0000_101_000010000 = .br true false true 0x010 := by decide
theorem test_decode_br_nop : decode 0x0000 = .br false false false 0 := by decide
theorem test_decode_add : decode 0b0001_010_000_0_00_001 = .add .r2 .r0 .r1 := by decide
theorem test_decode_addi : decode 0b0001_001_001_1_11111 = .addi .r1 .r1 0b11111 := by decide
theorem test_decode_ld : decode 0b0010_001_000001001 = .ld .r1 0x009 := by decide
theorem test_decode_st : decode 0b0011_010_000000101 = .st .r2 0x005 := by decide
theorem test_decode_jsr : decode 0b0100_1_00_000001000 = .jsr 0x008 := by decide
theorem test_decode_jmp : decode 0b0100_0_11_000001000 = .jmp 0x008 := by decide
theorem test_decode_and : decode 0b0101_011_001_0_00_010 = .and .r3 .r1 .r2 := by decide
theorem test_decode_andi : decode 0b0101_000_110_1_10000 = .andi .r0 .r6 0b10000 := by decide
theorem test_decode_ldr : decode 0b0110_100_001_111111 = .ldr .r4 .r1 63 := by decide
theorem test_decode_str : decode 0b0111_100_010_000101 = .str .r4 .r2 5 := by decide
theorem test_decode_dbug : decode 0b1000_101010111100 = .dbug := by decide
theorem test_decode_not : decode 0b1001_001_000_111111 = .not .r1 .r0 := by decide
theorem test_decode_ldi : decode 0b1010_001_000100000 = .ldi .r1 0x020 := by decide
theorem test_decode_sti : decode 0b1011_011_000100010 = .sti .r3 0x022 := by decide
theorem test_decode_jsrr : decode 0b1100_1_00_101_000010 = .jsrr .r5 2 := by decide
theorem test_decode_jmpr : decode 0b1100_0_00_111_000011 = .jmpr .r7 3 := by decide
theorem test_decode_ret : decode 0b1101_111111111111 = .ret := by decide
theorem test_decode_lea : decode 0b1110_000_111111111 = .lea .r0 0x1FF := by decide
theorem test_decode_trapOut : decode 0b1111_0000_00100001 = .trapOut := by decide
theorem test_decode_trapPuts : decode 0b1111_0000_00100010 = .trapPuts := by decide
theorem test_decode_trapIn : decode 0b1111_0000_00100011 = .trapIn := by decide
theorem test_decode_trapHalt : decode 0b1111_1111_00100101 = .trapHalt := by decide
theorem test_decode_trapOutn : decode 0b1111_0000_00110001 = .trapOutn := by decide
theorem test_decode_trapInn : decode 0b1111_0000_00110011 = .trapInn := by decide
theorem test_decode_trapRnd : decode 0b1111_0000_01000011 = .trapRnd := by decide
theorem test_decode_trapUnsupported : decode 0b1111_1111_11111111 = .trapUnsupported 0xFF := by decide
theorem test_encode_str : encode (.str .r2 .r2 5) = 0x7485 := by decide
theorem test_encode_jsrr : encode (.jsrr .r5 2) = 0xC942 := by decide
theorem test_decodeTableWord_accepts : decodeTableWord 16 0x9200 = some (.not .r1 .r0) := by decide
theorem test_decodeTableWord_refuses_long : decodeTableWord 32 0x9200 = none := by decide
theorem test_withFetchWord_is_fetched : (State.reset.withFetchWord 16 0xF025).fetchWord = 0xF025 := by decide

/-! ### Single steps: control transfer (vectors V1 to V30) -/

theorem test_br_V13 : ran (step (start 0xFFFF 0x0E05 .p [] [])) 0x0005 .p [] []
    [.diag .pcWrap, .diag (.pageCross 0xFFFF 0x0005)] = true := by decide
theorem test_br_not_taken_V12 : ran (step (start 0x31FF 0x0405 .p [] [])) 0x3200 .p [] [] [] = true := by decide
theorem test_jsr_V19 : ran (step (start 0x33FF 0x4800 .z [] [])) 0x3400 .z [(.r7, 0x3400)] []
    [.diag (.pageCross 0x33FF 0x3400)] = true := by decide
theorem test_jmp_V17 : ran (step (start 0x3004 0x4008 .z [(.r7, 0x1234)] [])) 0x3008 .z [(.r7, 0x1234)] [] [] = true := by
  decide
theorem test_jsrr_V23 : ran (step (start 0x3000 0xC9C3 .z [(.r7, 0x5000)] [])) 0x3004 .z [(.r7, 0x3001)] [] [] = true := by
  decide
theorem test_jsrr_fault_V27 : faultedOn (step (start 0x3000 0xC8FF .z [(.r3, 0xFFC1)] [])) 0x3000 65536 = true := by decide
theorem test_jmpr_V25 : ran (step (start 0x3000 0xC0FF .z [(.r3, 0xFFC0)] [])) 0xFFFF .z [] [] [] = true := by decide
theorem test_jmpr_fault_V26 : faultedOn (step (start 0x3000 0xC0C1 .z [(.r3, 0xFFFF)] [])) 0x3000 65536 = true := by decide
theorem test_ret_V30 : ran (step (start 0x300E 0xDABC .z [(.r7, 0xFFFF)] [])) 0xFFFF .z [] [] [] = true := by decide

/-! ### Single steps: operate (vectors V31 to V71) -/

theorem test_add_V34 : ran (step (start 0x3000 0x1401 .z [(.r0, 0x8000), (.r1, 0x8000)] [])) 0x3001 .z [(.r2, 0)] []
    [.diag (.overflow 0x8000 0x8000)] = true := by decide
theorem test_add_V43 : ran (step (start 0x3000 0x1241 .z [(.r1, 0x1234)] [])) 0x3001 .p [(.r1, 0x2468)] [] [] = true := by
  decide
theorem test_addi_V46 : ran (step (start 0x3000 0x127F .z [] [])) 0x3001 .n [(.r1, 0xFFFF)] [] [] = true := by decide
theorem test_addi_V51 : ran (step (start 0x3000 0x1270 .z [(.r1, 0x800F)] [])) 0x3001 .p [(.r1, 0x7FFF)] []
    [.diag (.overflow 0x800F 0xFFF0)] = true := by decide
theorem test_and_V55 : ran (step (start 0x3000 0x5642 .z [(.r1, 0xFF0F), (.r2, 0xF0F0)] [])) 0x3001 .n [(.r3, 0xF000)] []
    [] = true := by decide
theorem test_andi_V61 : ran (step (start 0x3000 0x5030 .n [(.r0, 0xABCD)] [])) 0x3001 .n [(.r0, 0xABC0)] [] [] = true := by
  decide
theorem test_not_V65 : ran (step (start 0x3000 0x9200 .z [(.r0, 0xFFFF), (.r1, 0x1111)] [])) 0x3001 .z [(.r1, 0)] []
    [] = true := by decide

/-! ### Single steps: loads and stores (vectors V72 to V100) -/

theorem test_ld_V77 : ran (step (start 0xFFFF 0x2203 .z [] [(0x0003, 0xF025)])) 0x0000 .n [(.r1, 0xF025)] []
    [.diag .pcWrap, .diag (.pageCross 0xFFFF 0x0003), .memRead 0x0003] = true := by decide
theorem test_ld_V74 : ran (step (start 0x3001 0x23FF .p [(.r1, 0x7777)] [])) 0x3002 .z [(.r1, 0)] []
    [.memRead 0x31FF] = true := by decide
theorem test_st_V79 : ran (step (start 0x3005 0x3405 .z [(.r2, 0xF025)] [])) 0x3006 .z [] [(0x3005, 0xF025)]
    [.memWrite 0x3005 0xF025] = true := by decide
theorem test_ldr_V84 : ran (step (start 0x3000 0x687F .z [(.r1, 0xFFC0)] [(0xFFFF, 0x7FFF)])) 0x3001 .p [(.r4, 0x7FFF)] []
    [.memRead 0xFFFF] = true := by decide
theorem test_ldr_fault_V85 : faultedOn (step (start 0x3000 0x687F .z [(.r1, 0xFFC1)] [])) 0x3000 65536 = true := by decide
theorem test_str_V88 : ran (step (start 0x3000 0x7485 .z [(.r2, 0x4000)] [])) 0x3001 .z [] [(0x4005, 0x4000)]
    [.memWrite 0x4005 0x4000] = true := by decide
theorem test_str_fault_V89 : faultedOn (step (start 0x3000 0x7882 .z [(.r2, 0xFFFE), (.r4, 0x8000)] [])) 0x3000 65536 =
    true := by decide
theorem test_ldi_V92 : ran (step (start 0x3000 0xA220 .z [] [(0x3020, 0x3020)])) 0x3001 .p [(.r1, 0x3020)] []
    [.memRead 0x3020, .memRead 0x3020] = true := by decide
theorem test_sti_V95 : ran (step (start 0x3006 0xB622 .z [(.r3, 0x0FFF)] [(0x3022, 0x3022)])) 0x3007 .z []
    [(0x3022, 0x0FFF)] [.memRead 0x3022, .memWrite 0x3022 0x0FFF] = true := by decide
theorem test_lea_V99 : ran (step (start 0xFFFF 0xE600 .n [(.r3, 0x9999)] [])) 0x0000 .z [(.r3, 0)] []
    [.diag .pcWrap, .diag (.pageCross 0xFFFF 0)] = true := by decide

/-! ### Single steps: TRAP and DBUG (vectors V101 to V146); the events of IN and INN are log entry 17's -/

theorem test_out_V102 : ran (step (start 0x300B 0xF021 .z [(.r0, 0x1241)] [])) 0x300C .z [(.r7, 0x300C)] []
    [.outChar 0x41] = true := by decide
theorem test_puts_V106 : ran (step (start 0x3008 0xF022 .z [(.r0, 0x4000)]
      [(0x4000, 0xFF41), (0x4001, 0x0142), (0x4002, 0x0100), (0x4003, 0x0043)])) 0x3009 .z
    [(.r7, 0x3009), (.r0, 0x4000)] []
    [.memRead 0x4000, .memRead 0x4001, .memRead 0x4002, .outString [0x41, 0x42]] = true := by decide
theorem test_puts_fault_V107 : faultedOn (step (start 0x3008 0xF022 .z [(.r0, 0xFFFE)] [(0xFFFE, 0x0041), (0xFFFF, 0x0042)]))
    0x3008 65536 = true := by decide
theorem test_in_V109 : ran (step { start 0x3000 0xF023 .n [(.r0, 0x9999)] [] with charIn := [0x41] }) 0x3001 .p
    [(.r0, 0x0041), (.r7, 0x3001)] [] [.inChar 0x41] = true := by decide
theorem test_in_hold_V111 : heldAt (start 0x3000 0xF023 .n [(.r0, 0x9999)] []) = true := by decide
theorem test_halt_V112 : ran (step (start 0x3007 0xF025 .p [(.r7, 0x1111)] [])) 0x3008 .p [(.r7, 0x3008)] [] [] = true := by
  decide
theorem test_outn_V116 : ran (step (start 0x3006 0xF031 .z [(.r0, 0x8000)] [])) 0x3007 .z [(.r7, 0x3007)] []
    [.outDecimal (-32768)] = true := by decide
theorem test_inn_V124 : ran (step { start 0x3000 0xF033 .p [(.r0, 1)] [] with intIn := [.number (-32769)] }) 0x3001 .p
    [(.r0, 0x7FFF), (.r7, 0x3001)] [] [.inInt (.number (-32769)), .diag (.inputError (some (-32769)))] = true := by decide
theorem test_inn_V127 : ran (step { start 0x3000 0xF033 .p [(.r0, 0x8001)] [] with intIn := [.malformed] }) 0x3001 .n
    [(.r0, 0x8001), (.r7, 0x3001)] [] [.inInt .malformed, .diag (.inputError none)] = true := by decide
theorem test_rnd_V130 : ran (step { start 0x3000 0xF043 .p [(.r0, 1)] [] with rndIn := [0xFFFE] }) 0x3001 .n
    [(.r0, 0xFFFE), (.r7, 0x3001)] [] [] = true := by decide
theorem test_unsupported_V137 : ran (step (start 0x3000 0xF024 .n [(.r0, 0x1111), (.r7, 0x2222)] [])) 0x3001 .n
    [(.r0, 0x1111), (.r7, 0x3001)] [] [.diag (.unsupportedTrap 0x24)] = true := by decide
theorem test_dbug_V146 : ran (step (start 0xFFFF 0x8000 .z [] [])) 0x0000 .z [] [] [.diag .pcWrap, .diag .debugDump] =
    true := by decide

/-! ### The load session (sessions L1 to L25) -/

/-- A file of lines written as strings. -/
def file (lines : List String) : List Line := lines.map String.toList

theorem test_load_L3 : launch (file ["HSAMPLE00013456", "E0005"]) = .ready { State.reset with pc := 5 } := by decide
theorem test_load_L4 : launch (file ["HSAMPLE00013456", "E4000"]) = .error .le7 := by decide
theorem test_load_L8 : launch (file ["HSAMPLE00013456", "T34570000"]) = .error .le1 := by decide
theorem test_load_L12 : launch (file ["HSAMPLE00013456", "T00G04567"]) = .error .le5 := by decide
theorem test_load_L15 : launch (file ["HSAMPLE0001345"]) = .error .le6 := by decide
theorem test_load_L17 : launch (file ["HSAMPLE00013456", "; a comment", "T00104567", "", "E0010"]) =
    .ready { State.reset with pc := 0x0010, mem := [(0x0010, 0x4567)] } := by decide
theorem test_load_L20 : launch (file ["HTOP   FFF00020", "TFFFF1234", "EFFF0"]) =
    .ready { State.reset with pc := 0xFFF0, mem := [(0xFFFF, 0x1234)] } := by decide
theorem test_load_L23 : launch (file ["HSAMPLE00013456", "E0005", "T00104567"]) = .refused .recordAfterEnd := by decide
theorem test_load_L24 : launch (file ["HSAMPLE00013456", "t00104567", "E0005"]) = .refused .lowerCaseKind := by decide
theorem test_load_L25 : launch (file ["T0010456"]) = .error .le2 := by decide

/-! ### Witnesses: for every statement with hypotheses, a state and operands that meet them all, each clause at a boundary -/

/-- A load session whose segment is 0x0010 to 0x0011. -/
def openSession : LoadSession := { phase := .segmentOpen ⟨['A', 'B', 'C', 'D', 'E', 'F'], 0x0010, 0x0011⟩, machine := State.reset }

theorem witness_DecodeOfEncodeIsTheInstruction : (Instr.trapUnsupported 0xFF).wellFormed = true := by decide

/-- Both kinds of row: a supported vector's, and the unsupported one's, whose clause compares the vector. -/
theorem witness_DecoderFollowsTheOpcodeMap :
    Instr.trapHalt.wellFormed = true ∧ (rowMatchMask .trapHalt).1 ≠ 0xF000 ∧
    (Instr.trapUnsupported 0x24).wellFormed = true ∧ (rowMatchMask (.trapUnsupported 0x24)).1 = 0xF000 := by decide

theorem witness_StepRunsTheDecodedInstruction :
    (start 0xFFFF 0x0E05 .p [] []).halted = false ∧
    decode ((start 0xFFFF 0x0E05 .p [] []).mem.read (start 0xFFFF 0x0E05 .p [] []).pc.toNat) = .br true true true 5 := by
  decide

theorem witness_HaltedEngineHasNoStep : ({ State.reset with halted := true } : State).halted = true := by decide

/-- A state that steps on, and one that faults. -/
theorem witness_EveryWordExecutes :
    State.reset.halted = false ∧ (∃ t, step State.reset = .next t) ∧
    (start 0x3000 0xC0C1 .z [(.r3, 0xFFFF)] []).halted = false ∧
    step (start 0x3000 0xC0C1 .z [(.r3, 0xFFFF)] []) = .fault (.addressOutOfRange 0x3000 65536) :=
  ⟨rfl, ⟨_, rfl⟩, rfl, rfl⟩

/-- The last cell of memory, for an instruction that leaves pc to the increment and for one that writes it. -/
theorem witness_CycleAdvancesPcAndReportsWrap :
    (inputMissing .dbug (start 0xFFFF 0x8000 .z [] []) = false ∧ writesPc .dbug = false ∧
      ∃ t, exec .dbug (start 0xFFFF 0x8000 .z [] []) = .next t) ∧
    inputMissing .ret State.reset = false ∧ writesPc .ret = true ∧ ∃ t, exec .ret State.reset = .next t :=
  ⟨⟨rfl, rfl, _, rfl⟩, rfl, rfl, _, rfl⟩

theorem witness_FlagReflectsTheWrittenRegister :
    (flagSource (.ldr .r4 .r1 63) = some .r4 ∧
      ∃ t, exec (.ldr .r4 .r1 63) (start 0x3000 0x687F .z [(.r1, 0xFFC0)] []) = .next t) ∧
    (flagSource .trapIn = some .r0 ∧ ({ State.reset with charIn := [0x41] } : State).charIn ≠ [] ∧
      ∃ t, exec .trapIn { State.reset with charIn := [0x41] } = .next t) ∧
    flagSource .trapInn = some .r0 ∧
      ({ State.reset with intIn := [.number (-32768)] } : State).intIn = .number (-32768) :: [] ∧
      ∃ t, exec .trapInn { State.reset with intIn := [.number (-32768)] } = .next t :=
  ⟨⟨rfl, _, rfl⟩, ⟨rfl, by decide, _, rfl⟩, rfl, rfl, _, rfl⟩

theorem witness_OtherInstructionsLeaveTheFlag :
    flagSource (.jsr 8) = none ∧ ∃ t, exec (.jsr 8) State.reset = .next t := ⟨rfl, _, rfl⟩

/-- HALT and another instruction. -/
theorem witness_HaltedIsSetByHaltAlone :
    (∃ t, exec .trapHalt State.reset = .next t ∧ t.halted = true) ∧
    ∃ t, exec .ret State.reset = .next t ∧ t.halted = false := ⟨⟨_, rfl, rfl⟩, _, rfl, rfl⟩

theorem witness_RegisterWritesAreConfined : ∃ t, exec (.add .r2 .r0 .r1) State.reset = .next t := ⟨_, rfl⟩

/-- A register outside the table's list, written (R4) and not written (R5), and an instruction that faults. -/
theorem witness_RegisterReadsAreConfined :
    (Reg.r4 ∉ readRegs (.ldr .r4 .r1 1) ∧ Reg.r4 ∈ writtenRegs (.ldr .r4 .r1 1)) ∧
    (Reg.r5 ∉ readRegs (.ldr .r4 .r1 1) ∧ Reg.r5 ∉ writtenRegs (.ldr .r4 .r1 1)) ∧
    (∃ t, exec (.ldr .r4 .r1 1) State.reset = .next t) ∧
    ∃ f, exec (.ldr .r4 .r1 1) (start 0x3000 0x6841 .z [(.r1, 0xFFFF)] []) = .fault f :=
  ⟨by decide, by decide, ⟨_, rfl⟩, _, rfl⟩

/-- A store to the last cell, and an instruction that stores nothing. -/
theorem witness_OnlyStoresWriteMemory :
    ((start 0x3000 0x7882 .z [(.r2, 0xFFFD)] []).mem.wf = true ∧
      storeTarget (.str .r4 .r2 2) (start 0x3000 0x7882 .z [(.r2, 0xFFFD)] []) = some (0xFFFF, 0) ∧
      ∃ t, exec (.str .r4 .r2 2) (start 0x3000 0x7882 .z [(.r2, 0xFFFD)] []) = .next t) ∧
    State.reset.mem.wf = true ∧ storeTarget .dbug State.reset = none ∧ ∃ t, exec .dbug State.reset = .next t :=
  ⟨⟨rfl, rfl, _, rfl⟩, rfl, rfl, _, rfl⟩

theorem witness_InputsAreTakenOneByOne :
    inputMissing .trapIn { State.reset with charIn := [1, 2] } = false ∧
    ∃ t, exec .trapIn { State.reset with charIn := [1, 2] } = .next t := ⟨rfl, _, rfl⟩

theorem witness_HistoryIsAppendOnly :
    ∃ t, step (start 0xFFFF 0xF021 .z [(.r0, 0x41)] []) = .next t ∧ t.outputLog = [.outChar 0x41] ∧
      t.diagnosticLog = [.pcWrap] := ⟨_, rfl, rfl, rfl⟩

theorem witness_StepKeepsTheInvariant : State.reset.Inv ∧ ∃ t, step State.reset = .next t :=
  ⟨⟨rfl, fun _ h => nomatch h⟩, _, rfl⟩

/-- Each instruction that can fault does, on the first address past 65535. -/
theorem witness_FaultExactlyOnAddressAbove65535 :
    faultedOn (exec (.ldr .r4 .r1 1) (start 0x3000 0x6841 .z [(.r1, 0xFFFF)] [])) 0x3000 65536 = true ∧
    faultedOn (exec (.str .r4 .r1 1) (start 0x3000 0x7841 .z [(.r1, 0xFFFF)] [])) 0x3000 65536 = true ∧
    faultedOn (exec (.jmpr .r3 1) (start 0x3000 0xC0C1 .z [(.r3, 0xFFFF)] [])) 0x3000 65536 = true ∧
    faultedOn (exec (.jsrr .r7 1) (start 0xFFFE 0xC9C1 .z [] [])) 0xFFFE 65536 = true ∧
    faultedOn (exec .trapPuts (start 0x3008 0xF022 .z [(.r0, 0xFFFF)] [(0xFFFF, 0x0142)])) 0x3008 65536 = true := by decide

theorem witness_UnwrittenCellsHoldZero :
    (Memory.wf [(0xFFFF, 1)] = true ∧ Memory.read [(0xFFFF, 1)] 0 = 0) ∧
    State.reset.halted = false ∧ State.reset.mem.read State.reset.pc.toNat = 0 := by decide

/-- ST R2, 0x006 at 3005 writes the word 0xF025 into the next cell. -/
theorem witness_StoreIsSeenByTheNextFetch :
    ∃ t, (start 0x3005 0x3406 .z [(.r2, 0xF025)] []).mem.wf = true ∧
      (start 0x3005 0x3406 .z [(.r2, 0xF025)] []).halted = false ∧
      exec (.st .r2 6) (start 0x3005 0x3406 .z [(.r2, 0xF025)] []) = .next t ∧
      storeTarget (.st .r2 6) (start 0x3005 0x3406 .z [(.r2, 0xF025)] []) = some (t.pc, 0xF025) :=
  ⟨_, rfl, rfl, rfl, rfl⟩

/-- Operands that overflow, at the first sum out of range, and operands that do not, at the last sum in range. -/
theorem witness_OverflowTestAndReport :
    overflow 0x7FFF 1 = true ∧ overflow 0x7FF0 0x000F = false ∧ overflow 0x8000 0xFFFF = true ∧
    overflow 0x8010 0xFFF0 = false := by decide

/-- The last cell of a page, where the address is in another page, and the cell before it, where it is not. -/
theorem witness_PageRelativeAddress :
    ((0x31FF : Word).toNat % 512 = 511 ∧ page (pgaddr (0x31FF + 1) 5) ≠ page 0x31FF) ∧
    (0x31FE : Word).toNat % 512 ≠ 511 ∧ page (pgaddr (0x31FE + 1) 0x1FF) = page 0x31FE := by decide

theorem witness_StorePageRelative : State.reset.mem.wf = true := by decide

/-- The highest address in range. -/
theorem witness_LoadIndexed :
    ((start 0x3000 0x687F .z [(.r1, 0xFFC0)] []).reg .r1).toNat + (63 : BitVec 6).toNat = 65535 := by decide

theorem witness_StoreIndexed :
    (start 0x3000 0x7882 .z [(.r2, 0xFFFD)] []).mem.wf = true ∧
    ((start 0x3000 0x7882 .z [(.r2, 0xFFFD)] []).reg .r2).toNat + (2 : BitVec 6).toNat = 65535 := by decide

theorem witness_StoreIndirect : (start 0x3006 0xB622 .z [(.r3, 0x0FFF)] [(0x3022, 0x3022)]).mem.wf = true := by decide

/-- A set bit that matches the flag, and one that does not. -/
theorem witness_BranchOnFlag :
    ((false = true ∧ Cc.p = .n) ∨ (false = true ∧ Cc.p = .z) ∨ (true = true ∧ Cc.p = .p)) ∧
    ¬((true = true ∧ Cc.p = .n) ∨ (true = true ∧ Cc.p = .z) ∨ (false = true ∧ Cc.p = .p)) := by decide

/-- Base R7, the link, at the highest target in range; and another base. -/
theorem witness_JumpToSubroutineIndexed :
    (if Reg.r7 = .r7 then (start 0xFFBF 0xC9FF .z [] []).pc + 1 else (start 0xFFBF 0xC9FF .z [] []).reg .r7).toNat +
      (63 : BitVec 6).toNat = 65535 ∧
    (if Reg.r3 = .r7 then State.reset.pc + 1 else State.reset.reg .r3).toNat + (0 : BitVec 6).toNat ≤ 65535 := by decide

theorem witness_JumpIndexed :
    ((start 0x3000 0xC0FF .z [(.r3, 0xFFC0)] []).reg .r3).toNat + (63 : BitVec 6).toNat = 65535 := by decide

/-- The string "A" that ends in the last cell of memory. -/
theorem witness_TrapPutsEmitsTheString :
    ((start 0x3008 0xF022 .z [(.r0, 0xFFFE)] [(0xFFFE, 0x0041)]).reg .r0).toNat + [(0x41 : Byte)].length ≤ 65535 ∧
    (∀ c ∈ [(0x41 : Byte)], c ≠ 0) ∧
    (∀ k, k < [(0x41 : Byte)].length → [(0x41 : Byte)][k]? =
      some (((start 0x3008 0xF022 .z [(.r0, 0xFFFE)] [(0xFFFE, 0x0041)]).mem.read
        (((start 0x3008 0xF022 .z [(.r0, 0xFFFE)] [(0xFFFE, 0x0041)]).reg .r0).toNat + k)).setWidth 8)) ∧
    ((start 0x3008 0xF022 .z [(.r0, 0xFFFE)] [(0xFFFE, 0x0041)]).mem.read
      (((start 0x3008 0xF022 .z [(.r0, 0xFFFE)] [(0xFFFE, 0x0041)]).reg .r0).toNat + [(0x41 : Byte)].length)).toNat % 256 =
      0 := by decide

theorem witness_TrapInReadsCharacter : ({ State.reset with charIn := [65536] } : State).charIn = 65536 :: [] := rfl

/-- Both ends of the signed 16-bit range. -/
theorem witness_TrapInnReadsInRangeNumber :
    (({ State.reset with intIn := [.number (-32768)] } : State).intIn = .number (-32768) :: [] ∧
      (-32768 : Int) ≤ -32768 ∧ (-32768 : Int) ≤ 32767) ∧
    ({ State.reset with intIn := [.number 32767] } : State).intIn = .number 32767 :: [] ∧
      (-32768 : Int) ≤ 32767 ∧ (32767 : Int) ≤ 32767 := by decide

/-- The first numbers outside the range on both sides, and malformed input. -/
theorem witness_TrapInnReportsInputError :
    (({ State.reset with intIn := [.number (-32769)] } : State).intIn = .number (-32769) :: [] ∧ (-32769 : Int) < -32768) ∧
    (({ State.reset with intIn := [.number 32768] } : State).intIn = .number 32768 :: [] ∧ (32767 : Int) < 32768) ∧
    ({ State.reset with intIn := [.malformed] } : State).intIn = .malformed :: [] := by decide

theorem witness_TrapRndStoresTheDraw : ({ State.reset with rndIn := [0x8000] } : State).rndIn = 0x8000 :: [] := rfl

theorem witness_TrapUnsupportedReports : (0x00 : BitVec 8) ∉ supportedVectors ∧ (0xFF : BitVec 8) ∉ supportedVectors := by
  decide

/-- TRAP IN and TRAP INN with nothing ready: one for each side of the conclusion. -/
theorem witness_HeldStepChangesNothing :
    ((start 0x3000 0xF023 .n [] []).halted = false ∧ (start 0x3000 0xF023 .n [] []).held = true ∧
      decode (start 0x3000 0xF023 .n [] []).fetchWord = .trapIn) ∧
    (start 0x3000 0xF033 .n [] []).halted = false ∧ (start 0x3000 0xF033 .n [] []).held = true ∧
      decode (start 0x3000 0xF033 .n [] []).fetchWord = .trapInn := by decide

/-- For each instruction a parameter reaches, the last operands outside its case: the highest address, a branch not taken
before a page's last cell, a string that ends at 65535, the numbers at both ends of INN's range. -/
theorem witness_ParametersMatterOnlyInTheirCases :
    ¬parameterCase (.ldr .r4 .r1 63) (start 0x3000 0x687F .z [(.r1, 0xFFC0)] []) ∧
    ¬parameterCase (.jsrr .r3 63) (start 0x3000 0xC8FF .z [(.r3, 0xFFC0)] []) ∧
    ¬parameterCase (.br false false true 5) (start 0x31FE 0x0205 .z [] []) ∧
    ¬parameterCase (.br false false true 5) (start 0x31FF 0x0205 .p [] []) ∧
    ¬parameterCase .trapPuts (start 0x3008 0xF022 .z [(.r0, 0xFFFF)] []) ∧
    ¬parameterCase .trapInn { State.reset with intIn := [.number (-32768)] } ∧
    ¬parameterCase (decode State.reset.fetchWord) State.reset := by
  refine ⟨(by decide : ¬65535 < _), (by decide : ¬(_ ∨ 65535 < _)), (by decide : ¬(_ = false ∧ _ % 512 = 511)),
    (by decide : ¬(_ = false ∧ _ % 512 = 511)), fun h => h ⟨65535, by decide, by decide, by decide, ?_⟩, ?_,
    (by decide : ¬(_ = false ∧ _ % 512 = 511))⟩
  · intro j h1 h2
    exact absurd (lt_of_le_of_lt h1 h2) (by decide)
  · rintro (⟨_, h⟩ | ⟨k, _, h, hk⟩)
    · cases h
    · cases h
      exact absurd hk (by decide)

theorem witness_HeaderRecordOpensTheSegment :
    LoadSession.new.phase = .awaitingHeader ∧
    openSession.phase = .segmentOpen ⟨['A', 'B', 'C', 'D', 'E', 'F'], 0x0010, 0x0011⟩ := by decide

/-- Each clause: no header, the addresses beside the segment on both sides, its first and its last address. -/
theorem witness_TextRecordWritesTheCell :
    openSession.machine.mem.wf = true ∧ LoadSession.new.machine.mem.wf = true ∧
    hexField 'a' 'B' 'c' 'D' = some (0xABCD : Word).toNat ∧ LoadSession.new.phase = .awaitingHeader ∧
    (hexField '0' '0' '0' 'F' = some (0x000F : Word).toNat ∧ ¬((0x0010 : Int) ≤ 0x000F ∧ (0x000F : Int) ≤ 0x0011)) ∧
    (hexField '0' '0' '1' '2' = some (0x0012 : Word).toNat ∧ ¬((0x0010 : Int) ≤ 0x0012 ∧ (0x0012 : Int) ≤ 0x0011)) ∧
    (hexField '0' '0' '1' '0' = some (0x0010 : Word).toNat ∧ (0x0010 : Int) ≤ 0x0010 ∧ (0x0010 : Int) ≤ 0x0011) ∧
    hexField '0' '0' '1' '1' = some (0x0011 : Word).toNat ∧ (0x0010 : Int) ≤ 0x0011 ∧ (0x0011 : Int) ≤ 0x0011 := by decide

theorem witness_EndRecordSetsThePc :
    LoadSession.new.phase = .awaitingHeader ∧
    (hexField '0' '0' '1' '2' = some (0x0012 : Word).toNat ∧ ¬((0x0010 : Int) ≤ 0x0012 ∧ (0x0012 : Int) ≤ 0x0011)) ∧
    hexField '0' '0' '1' '1' = some (0x0011 : Word).toNat ∧ (0x0010 : Int) ≤ 0x0011 ∧ (0x0011 : Int) ≤ 0x0011 := by decide

/-- A load that goes through and writes the segment's last cell, and lines that are no record. -/
theorem witness_LoadChangesOnlyMemoryAndPc :
    loadLines openSession [['T', '0', '0', '1', '1', 'F', 'F', 'F', 'F']] =
      .ok { openSession with machine := { State.reset with mem := [(0x0011, 0xFFFF)] } } ∧
    textCell? ['T', '0', '0', '1', '1', 'F', 'F', 'F', 'F'] = some (0x0011, 0xFFFF) ∧
    endAddress? ['E', '0', '0', '1', '0'] = some 0x0010 ∧ ignoredLine [] ∧ ignoredLine [';', 'T'] :=
  ⟨by decide, by decide, by decide, trivial, (by decide : ';' ∉ ['H', 'T', 'E', 'h', 't', 'e'])⟩

/-- One step under another value of a parameter: with EA_OVERFLOW = wrap, JMPR R3, #1 from FFFF goes to 0000 (92_eei_decisions.md
D5); with a layout whose base register stands in bits 11 to 9, the word C601 names base R3. -/
theorem test_stepWith_wrap :
    ran (stepWith { params with eaOverflow := .wrap } fieldLayout (start 0x3000 0xC0C1 .z [(.r3, 0xFFFF)] [])) 0x0000 .z []
      [] [] = true := by decide
theorem test_decodeWith_baser : decodeWith { fieldLayout with baser := 9 } 0xC601 = .jmpr .r3 1 := by decide

/-- A Text record at each end of the segment, and the entry point in its last cell. -/
theorem witness_WellFormedObjectFileLaunches :
    (∀ c ∈ ([(0x0010, 0xF025), (0x0011, 0xFFFF)] : List (Word × Word)),
      (0x0010 : Word).toNat ≤ c.1.toNat ∧ c.1.toNat < (0x0010 : Word).toNat + (2 : Word).toNat) ∧
    (0x0010 : Word).toNat ≤ (0x0011 : Word).toNat ∧ (0x0011 : Word).toNat < (0x0010 : Word).toNat + (2 : Word).toNat := by
  refine ⟨fun c hc => ?_, by decide, by decide⟩
  rcases List.mem_pair.1 hc with rfl | rfl <;> decide

theorem witness_EndedRunIsHaltedAndStable : ∃ t, drive 1 (start 0x3007 0xF025 .p [] []) = .ended t := ⟨_, rfl⟩

end Sys2Proof.Tests
end

namespace Sys2Proof.Machine

/-! ## The condition flag (10_state.md R17, R18) -/

section ConditionFlag

theorem eq_zero_iff_toInt {v : Word} : v = 0 ↔ v.toInt = 0 := by rw [← BitVec.toInt_inj]; rfl

/-- The flag by the signed value alone. -/
theorem ccOf_eq_of_toInt (v : Word) : ccOf v = if v.toInt < 0 then .n else if v.toInt = 0 then .z else .p := by
  simp only [ccOf, signed, eq_zero_iff_toInt]

theorem ccOf_eq_n {v : Word} : ccOf v = .n ↔ v.toInt < 0 := by
  rw [ccOf_eq_of_toInt]
  split_ifs <;> simp <;> omega

theorem ccOf_eq_z {v : Word} : ccOf v = .z ↔ v = 0 := by
  rw [ccOf_eq_of_toInt, eq_zero_iff_toInt]
  split_ifs <;> simp <;> omega

theorem ccOf_eq_p {v : Word} : ccOf v = .p ↔ 0 < v.toInt := by
  rw [ccOf_eq_of_toInt]
  split_ifs <;> simp <;> omega

theorem State.writeDr_cc_eq_ccOf_reg (s : State) (d : Reg) (v : Word) :
    (s.writeDr d v).cc = ccOf ((s.writeDr d v).reg d) := by simp

/-- The link write of a TRAP comes after the flag update and changes neither the flag nor R0. -/
theorem State.linkR7_cc_eq_ccOf_r0 {s : State} (h : s.cc = ccOf (s.reg .r0)) :
    s.linkR7.cc = ccOf (s.linkR7.reg .r0) := by simpa using h

/-- Whatever the channel answers, INN leaves the flag that R0 gives: with malformed input R0 is not written and the flag
is still set from it (43_trap_and_debug.md R106). -/
theorem takeInt_cc_eq_ccOf_r0 (r : IntAnswer) (s : State) :
    (State.takeInt params r s).cc = ccOf ((State.takeInt params r s).reg .r0) := by
  cases r with
  | number k => rw [takeInt_number]; exact State.writeDr_cc_eq_ccOf_reg ..
  | malformed => rfl

/-- An instruction that updates the flag, and is not held, leaves the flag that the new value of its register gives. -/
theorem exec_cc_eq_ccOf_reg {i : Instr} {r : Reg} {s t : State} (hr : flagSource i = some r)
    (hready : inputMissing i s = false) (h : exec i s = .next t) : t.cc = ccOf (t.reg r) := by
  cases i with
  | add | addi | and | andi | not | ld | ldi | lea =>
    cases hr; cases h
    exact State.writeDr_cc_eq_ccOf_reg ..
  | ldr =>
    cases hr
    rw [exec_ldr] at h
    split_ifs at h
    cases h
    exact State.writeDr_cc_eq_ccOf_reg ..
  | trapIn =>
    cases hr
    cases hc : s.charIn with
    | nil => simp [inputMissing, hc] at hready
    | cons c rest =>
      rw [exec_trapIn_cons s hc] at h
      cases h
      exact State.linkR7_cc_eq_ccOf_r0 (State.writeDr_cc_eq_ccOf_reg ..)
  | trapInn =>
    cases hr
    cases hc : s.intIn with
    | nil => simp [inputMissing, hc] at hready
    | cons a rest =>
      rw [exec_trapInn_cons s hc] at h
      cases h
      exact State.linkR7_cc_eq_ccOf_r0 (takeInt_cc_eq_ccOf_r0 ..)
  | trapRnd =>
    cases hr; cases h
    exact State.linkR7_cc_eq_ccOf_r0 (State.writeDr_cc_eq_ccOf_reg ..)
  | _ => cases hr

end ConditionFlag

/-- Settles O9: the flag is `ccOf` of the register's new value, and `ccOf` is the classification by sign. -/
theorem flagReflectsTheWrittenRegister : Obligations.FlagReflectsTheWrittenRegister := by
  intro i r s t hr h hin hinn
  have hready : inputMissing i s = false := by
    cases i with
    | trapIn => simpa [inputMissing] using hin rfl
    | trapInn =>
      obtain ⟨k, rest, hk, _⟩ := hinn rfl
      simp [inputMissing, hk]
    | _ => rfl
  rw [exec_cc_eq_ccOf_reg hr hready h]
  exact ⟨ccOf_eq_n, ccOf_eq_z, ccOf_eq_p⟩

/-! ## The halted flag (10_state.md R19) -/

/-- The state with its halted flag replaced. -/
def State.setHalted (s : State) (b : Bool) : State := { s with halted := b }

/-- An outcome with its next state changed by `f`; a fault or a refusal stays as it is. -/
def mapNext (f : State → State) : Out → Out
  | .next t => .next (f t)
  | .fault r => .fault r
  | .refused r => .refused r

section HaltedFlag

@[simp] theorem State.setHalted_halted (s : State) (b : Bool) : (s.setHalted b).halted = b := rfl
@[simp] theorem State.setHalted_cc (s : State) (b : Bool) : (s.setHalted b).cc = s.cc := rfl
@[simp] theorem State.setHalted_self (s : State) : s.setHalted s.halted = s := rfl

/-- An instruction with an indexed address answers a state or a fault, by the address alone. -/
theorem mapNext_ite (f : State → State) (c : Prop) [Decidable c] (t : State) (r : Fault) :
    mapNext f (if c then .next t else .fault r) = if c then .next (f t) else .fault r := by
  split <;> rfl

theorem takeInt_setHalted (r : IntAnswer) (s : State) (b : Bool) :
    State.takeInt params r (s.setHalted b) = (State.takeInt params r s).setHalted b := by
  cases r with
  | number k => rw [takeInt_number, takeInt_number]; rfl
  | malformed => rfl

/-- No instruction but HALT reads or writes the halted flag: it goes through the step unchanged. -/
theorem exec_setHalted {i : Instr} (hi : i ≠ .trapHalt) (s : State) (b : Bool) :
    exec i (s.setHalted b) = mapNext (·.setHalted b) (exec i s) := by
  cases i with
  | trapHalt => exact absurd rfl hi
  | br n z p off =>
    rw [exec_br, exec_br, State.setHalted_cc]
    split_ifs <;> rfl
  | ldr => rw [exec_ldr, exec_ldr, mapNext_ite]; rfl
  | str => rw [exec_str, exec_str, mapNext_ite]; rfl
  | jsrr => rw [exec_jsrr, exec_jsrr, mapNext_ite]; rfl
  | jmpr => rw [exec_jmpr, exec_jmpr, mapNext_ite]; rfl
  | trapPuts =>
    cases hs : scanString .lowByteZero s.mem (65536 - (s.reg .r0).toNat) (s.reg .r0) with
    | none => rw [exec_trapPuts_none s hs, exec_trapPuts_none (s.setHalted b) hs]; rfl
    | some codes => rw [exec_trapPuts_some s hs, exec_trapPuts_some (s.setHalted b) hs]; rfl
  | trapIn =>
    cases hc : s.charIn with
    | nil => rw [exec_trapIn_nil s hc, exec_trapIn_nil (s.setHalted b) hc]; rfl
    | cons c rest => rw [exec_trapIn_cons s hc, exec_trapIn_cons (s.setHalted b) hc]; rfl
  | trapInn =>
    cases hc : s.intIn with
    | nil => rw [exec_trapInn_nil s hc, exec_trapInn_nil (s.setHalted b) hc]; rfl
    | cons a rest =>
      rw [exec_trapInn_cons s hc, exec_trapInn_cons (s.setHalted b) hc]
      exact congrArg (fun t => Host.Outcome.next (State.linkR7 t))
        (takeInt_setHalted a (State.emit { s.beginCycle with intIn := rest } [.inInt a]) b)
  | _ => rfl

/-- HALT sets the halted flag whatever it was. -/
theorem exec_trapHalt_setHalted (s : State) (b : Bool) :
    exec .trapHalt (s.setHalted b) = mapNext (·.setHalted true) (exec .trapHalt s) := rfl

/-- What the halted flag does to a step: it comes out as it went in, or set by HALT, and changes nothing else. -/
theorem exec_setHalted_eq (i : Instr) (s : State) (b : Bool) :
    exec i (s.setHalted b) = mapNext (·.setHalted (b || decide (i = .trapHalt))) (exec i s) := by
  by_cases hi : i = .trapHalt
  · subst hi
    simpa using exec_trapHalt_setHalted s b
  · simpa [hi] using exec_setHalted hi s b

/-- Replacing the halted flag by itself changes nothing, so the flag after a step is read off `exec_setHalted_eq`. -/
theorem exec_next_halted {i : Instr} {s t : State} (h : exec i s = .next t) :
    t.halted = (s.halted || decide (i = .trapHalt)) := by
  have key := exec_setHalted_eq i s s.halted
  rw [State.setHalted_self, h] at key
  exact congrArg State.halted (Host.Outcome.next.inj key)

end HaltedFlag

/-- Settles O11: replacing the halted flag commutes with `exec`, but for the flag HALT sets. -/
theorem haltedIsSetByHaltAlone : Obligations.HaltedIsSetByHaltAlone := by
  refine ⟨rfl, fun i s t h => ?_, fun i s b => ?_⟩
  · simp [exec_next_halted h]
  · have key := exec_setHalted_eq i s b
    cases h : exec i s with
    | next t => rw [h] at key; exact key
    | fault f => rw [h] at key; exact key
    | refused r => rw [h] at key; exact key

end Sys2Proof.Machine

namespace Sys2Proof.Machine

/-! ## Control transfer: jumps without a link (40_control_transfer.md) -/

/-- The cycle's first two steps and then a jump: only `pc` and the history change, and what the two steps report is all that
is recorded. -/
theorem jumped_beginCycle_jump (s : State) (target : Word) :
    jumped false target (fetchReport s.pc) s (s.beginCycle.jump target) := by
  have hrest : restSame [] s (s.beginCycle.jump target) := ⟨fun _ _ => rfl, rfl, rfl, rfl, rfl, rfl⟩
  have hevents : (s.beginCycle.jump target).events = s.events ++ fetchReport s.pc := by
    rw [State.jump_events, State.beginCycle_events, cycleEvents_eq]
  exact ⟨State.jump_pc .., nofun, hrest, rfl, fun _ => rfl, hevents⟩

/-- Settles O42: RET is the cycle's first two steps and a jump to R7, which they leave alone. -/
theorem returnJumpsToR7 : Obligations.ReturnJumpsToR7 := fun s =>
  ⟨_, exec_ret s, jumped_beginCycle_jump s (s.reg .r7)⟩

end Sys2Proof.Machine

namespace Sys2Proof.Machine

/-! ## ADD, AND and NOT (41_operate.md R80 to R85) -/

section Operate

@[simp] theorem State.emit_nil (s : State) : s.emit [] = s := by simp [State.emit]

/-- The cycle's first two steps, a report `es`, and then the write of DR and the flag: nothing else changes. -/
theorem wroteDr_beginCycle_emit_writeDr (s : State) (dr : Reg) (v : Word) (es : List Event) :
    wroteDr dr v (fetchReport s.pc ++ es) s ((s.beginCycle.emit es).writeDr dr v) := by
  have hevents : ((s.beginCycle.emit es).writeDr dr v).events = s.events ++ (fetchReport s.pc ++ es) := by
    simp [cycleEvents_eq]
  have hregs : regsSameBut [dr] s ((s.beginCycle.emit es).writeDr dr v) := fun r hr =>
    (State.writeDr_reg ..).trans (if_neg (by simpa using hr))
  exact ⟨by simp, ccOf_eq_flagOf v, rfl, hevents, ⟨hregs, rfl, rfl, rfl, rfl, rfl⟩, fun _ => rfl⟩

/-- The same with no report beyond the fetch's. -/
theorem wroteDr_beginCycle_writeDr (s : State) (dr : Reg) (v : Word) :
    wroteDr dr v (fetchReport s.pc) s (s.beginCycle.writeDr dr v) := by
  simpa using wroteDr_beginCycle_emit_writeDr s dr v []

/-- The overflow test by the sign bits, as 41_operate.md R85 defines it. -/
theorem overflow_iff_msb (a b : Word) : overflow a b = true ↔ a.msb = b.msb ∧ (a + b).msb ≠ a.msb := by
  simp [overflow]

/-- The overflow test by the signed sum: it does not fit in 16 bits. -/
theorem overflow_iff_toInt (a b : Word) :
    overflow a b = true ↔ a.toInt + b.toInt < -32768 ∨ 32767 < a.toInt + b.toInt := by
  have hsadd : overflow a b = BitVec.saddOverflow a b := (BitVec.saddOverflow_eq a b).symm
  rw [hsadd, BitVec.saddOverflow, Bool.or_eq_true, decide_eq_true_eq, decide_eq_true_eq]
  omega

/-- Overflow is reported exactly under any condition equivalent to the test. -/
theorem overflowEvents_eq_ite {a b : Word} {c : Prop} [Decidable c] (h : overflow a b = true ↔ c) :
    overflowEvents a b = if c then [.diag (.overflow a b)] else [] :=
  if_congr h rfl rfl

/-- The sum of two words is the sum of their signed values, truncated. -/
theorem add_eq_ofInt_toInt (a b : Word) : a + b = BitVec.ofInt 16 (a.toInt + b.toInt) := by
  rw [BitVec.ofInt_add, BitVec.ofInt_toInt, BitVec.ofInt_toInt]

/-- Sign extension keeps the signed value of the immediate. -/
theorem immOperand_toInt (imm : BitVec 5) : (immOperand imm).toInt = imm.toInt :=
  BitVec.toInt_signExtend_of_le (by decide)

/-- Bits 15 to 4 of the extended immediate are all its sign bit (41_operate.md R83). -/
theorem immOperand_getLsbD {b : Nat} (hb : b < 16) (imm : BitVec 5) :
    (immOperand imm).getLsbD b = if b < 4 then imm.getLsbD b else imm.getLsbD 4 := by
  have hmsb : imm.msb = imm.getLsbD 4 := BitVec.msb_eq_getLsbD_last imm
  simp only [immOperand, sext16, BitVec.getLsbD_signExtend, hb, decide_true, Bool.true_and, hmsb]
  rcases Nat.lt_trichotomy b 4 with h | rfl | h
  · rw [if_pos h, if_pos (by omega)]
  · rfl
  · rw [if_neg (by omega), if_neg (by omega)]

/-- The complement of a word is its distance from 65535. -/
theorem not_eq_ofNat_sub (v : Word) : ~~~v = BitVec.ofNat 16 (65535 - v.toNat) := by
  apply BitVec.eq_of_toNat_eq
  rw [BitVec.toNat_not, BitVec.toNat_ofNat, Nat.mod_eq_of_lt (by omega)]

end Operate

/-- Settles O23: the word sum is the sum modulo 65536, and the overflow test is the one by sign bits. -/
theorem addRegisterForm : Obligations.AddRegisterForm := by
  intro dr sr1 sr2 s
  have hsum : s.reg sr1 + s.reg sr2 = BitVec.ofNat 16 (((s.reg sr1).toNat + (s.reg sr2).toNat) % 65536) :=
    BitVec.eq_of_toNat_eq (by simp)
  refine ⟨_, exec_add s dr sr1 sr2, ?_⟩
  rw [← hsum, ← overflowEvents_eq_ite (overflow_iff_msb _ _)]
  exact wroteDr_beginCycle_emit_writeDr ..

/-- Settles O24: the extended immediate has the immediate's signed value, and the overflow test is the one by the signed
sum. -/
theorem addImmediateForm : Obligations.AddImmediateForm := by
  intro dr sr1 imm s
  have himm : BitVec.ofInt 16 imm.toInt = immOperand imm := rfl
  refine ⟨_, exec_addi s dr sr1 imm, ?_⟩
  rw [himm, ← immOperand_toInt imm, ← add_eq_ofInt_toInt, ← overflowEvents_eq_ite (overflow_iff_toInt _ _)]
  exact wroteDr_beginCycle_emit_writeDr ..

/-- Settles O25: AND writes the bitwise conjunction of its two registers. -/
theorem andRegisterForm : Obligations.AndRegisterForm := fun dr sr1 sr2 s =>
  ⟨_, _, exec_and s dr sr1 sr2, fun _ => BitVec.getLsbD_and, wroteDr_beginCycle_writeDr ..⟩

/-- Settles O26: below bit 16 the extended immediate has the bits stated; from there on the register has none. -/
theorem andImmediateForm : Obligations.AndImmediateForm := by
  intro dr sr1 imm s
  refine ⟨_, _, exec_andi s dr sr1 imm, fun b => ?_, wroteDr_beginCycle_writeDr ..⟩
  rw [BitVec.getLsbD_and]
  rcases Nat.lt_or_ge b 16 with hb | hb
  · rw [immOperand_getLsbD hb]
  · rw [BitVec.getLsbD_of_ge _ b hb, Bool.false_and, Bool.false_and]

/-- Settles O27: NOT writes the complement, and the second NOT reads it back from DR. -/
theorem notComplements : Obligations.NotComplements := by
  intro dr sr s
  refine ⟨_, exec_not s dr sr, ?_, _, exec_not _ dr dr, ?_⟩
  · rw [← not_eq_ofNat_sub]
    exact wroteDr_beginCycle_writeDr ..
  · simp only [State.writeDr_reg, if_pos, BitVec.not_not]

end Sys2Proof.Machine

namespace Sys2Proof.Machine

/-! ## Loads, stores and LEA, page-relative (30_encoding.md R55, 42_load_store.md R90, R91, R94 to R96) -/

section LoadStore

theorem State.emit_emit (s : State) (es es' : List Event) : (s.emit es).emit es' = s.emit (es ++ es') := by
  simp [State.emit]

theorem pgaddr_toNat (pc : Word) (off : BitVec 9) : (pgaddr pc off).toNat = pc.toNat / 512 * 512 + off.toNat := by
  have hpage : pc.toNat / 512 % 128 = pc.toNat / 512 := Nat.mod_eq_of_lt (by omega)
  rw [pgaddr, BitVec.toNat_append, ← Nat.shiftLeft_add_eq_or_of_lt off.isLt, BitVec.extractLsb'_toNat,
    Nat.shiftLeft_eq, Nat.shiftRight_eq_div_pow]
  norm_num [hpage]

/-- The offset is less than a page, so the address lies in the page of the pc it is formed from. -/
theorem page_pgaddr (pc : Word) (off : BitVec 9) : page (pgaddr pc off) = page pc := by
  rw [page, page, pgaddr_toNat]
  omega

/-- The next instruction lies in another page exactly after a page's last cell, after 65535 too. -/
theorem page_succ_eq_iff (ia : Word) : page (ia + 1) = page ia ↔ ia.toNat % 512 ≠ 511 := by
  have hsucc : (ia + 1).toNat = (ia.toNat + 1) % 65536 := BitVec.toNat_add ..
  rw [page, page, hsucc]
  omega

/-- The address `pgaddr()` forms leaves the instruction's page exactly when the instruction is its page's last cell. -/
theorem pageCrossEvents_pgaddr_eq_crossReport (ia : Word) (off : BitVec 9) :
    pageCrossEvents ia (pgaddr (ia + 1) off) = crossReport ia (pgaddr (ia + 1) off) := by
  rw [pageCrossEvents, crossReport, page_pgaddr]
  simp only [page_succ_eq_iff, ite_not]

theorem State.formPage_eq (s : State) (off : BitVec 9) :
    s.formPage off = s.beginCycle.emit (crossReport s.pc (pgaddr (s.pc + 1) off)) := by
  rw [State.formPage, pageCrossEvents_pgaddr_eq_crossReport]

theorem State.loadDr_eq (s : State) (dr : Reg) (ea : Word) :
    s.loadDr dr ea = (s.emit [.memRead ea]).writeDr dr (s.cell ea) := rfl

/-- A page-relative address formed, a report `es`, and then the write of DR and the flag: nothing else changes. -/
theorem wroteDr_formPage_emit_writeDr (s : State) (dr : Reg) (v : Word) (off : BitVec 9) (es : List Event) :
    wroteDr dr v (fetchReport s.pc ++ crossReport s.pc (pgaddr (s.pc + 1) off) ++ es) s
      (((s.formPage off).emit es).writeDr dr v) := by
  rw [State.formPage_eq, State.emit_emit, List.append_assoc]
  exact wroteDr_beginCycle_emit_writeDr ..

/-- The cycle's first two steps, a report `es`, and then the store: in a canonical memory the cell takes the value, and
nothing else changes. -/
theorem wroteCell_beginCycle_emit_storeCell {s : State} (h : s.mem.wf = true) (a v : Word) (es : List Event) :
    wroteCell a v (fetchReport s.pc ++ es ++ [.memWrite a v]) s ((s.beginCycle.emit es).storeCell a v) := by
  have hcell : (s.mem.write a.toNat v).read a.toNat = v := Memory.read_write_self v h
  have hother : memSameBut a.toNat s ((s.beginCycle.emit es).storeCell a v) := fun _ hb =>
    Memory.read_write_of_ne v hb
  have hevents : ((s.beginCycle.emit es).storeCell a v).events =
      s.events ++ (fetchReport s.pc ++ es ++ [.memWrite a v]) := by
    simp [cycleEvents_eq]
  exact ⟨hcell, hother, rfl, rfl, hevents, fun _ _ => rfl, rfl, rfl, rfl, rfl, rfl⟩

/-- The same after a page-relative address is formed. -/
theorem wroteCell_formPage_emit_storeCell {s : State} (h : s.mem.wf = true) (a v : Word) (off : BitVec 9)
    (es : List Event) :
    wroteCell a v (fetchReport s.pc ++ crossReport s.pc (pgaddr (s.pc + 1) off) ++ (es ++ [.memWrite a v])) s
      (((s.formPage off).emit es).storeCell a v) := by
  rw [State.formPage_eq, State.emit_emit, ← List.append_assoc, List.append_assoc (fetchReport s.pc)]
  exact wroteCell_beginCycle_emit_storeCell h ..

end LoadStore

/-- Settles O30: LD reports the read of the cell it then writes to DR. -/
theorem loadPageRelative : Obligations.LoadPageRelative := by
  intro dr off s
  refine ⟨_, exec_ld s dr off, ?_⟩
  rw [State.loadDr_eq, State.formPage_cell, State.cell_eq_read]
  exact wroteDr_formPage_emit_writeDr ..

/-- Settles O31: ST stores with nothing reported between the address and the write. -/
theorem storePageRelative : Obligations.StorePageRelative := by
  intro sr off s hwf
  refine ⟨_, exec_st s sr off, ?_⟩
  simpa using wroteCell_formPage_emit_storeCell hwf (pgaddr (s.pc + 1) off) (s.reg sr) off []

/-- Settles O34: LDI reports both reads, in order, and forming the address leaves both cells as they were. -/
theorem loadIndirect : Obligations.LoadIndirect := by
  intro dr off s
  refine ⟨_, exec_ldi s dr off, ?_⟩
  rw [State.loadDr_eq, State.emit_emit, State.emit_cell, State.formPage_cell, State.cell_eq_read, State.cell_eq_read]
  exact wroteDr_formPage_emit_writeDr ..

/-- Settles O35: the address stored to is the pointer read from the memory before the store, its own cell or not. -/
theorem storeIndirect : Obligations.StoreIndirect := by
  intro sr off s hwf
  exact ⟨_, exec_sti s sr off, wroteCell_formPage_emit_storeCell hwf _ _ off [.memRead (pgaddr (s.pc + 1) off)]⟩

/-- Settles O36: LEA writes the address with nothing reported beyond its forming. -/
theorem loadEffectiveAddress : Obligations.LoadEffectiveAddress := by
  intro dr off s
  refine ⟨_, exec_lea s dr off, ?_⟩
  simpa using wroteDr_formPage_emit_writeDr s dr (pgaddr (s.pc + 1) off) off []

end Sys2Proof.Machine

namespace Sys2Proof.Machine

/-! ## Text records (70_reset_and_hazards.md section 2, R146) -/

section TextRecords

/-- The session after a Text record put `v` at address `a`. -/
def LoadSession.putCell (ls : LoadSession) (a v : Word) : LoadSession :=
  { ls with machine := { ls.machine with mem := ls.machine.mem.write a.toNat v } }

@[simp] theorem LoadSession.putCell_phase (ls : LoadSession) (a v : Word) : (ls.putCell a v).phase = ls.phase := rfl

theorem LoadSession.putCell_machine (ls : LoadSession) (a v : Word) :
    (ls.putCell a v).machine = { ls.machine with mem := (ls.putCell a v).machine.mem } := rfl

theorem LoadSession.putCell_wf {ls : LoadSession} (a v : Word) (h : ls.machine.mem.wf = true) :
    (ls.putCell a v).machine.mem.wf = true :=
  Memory.wf_write v a.isLt h

theorem LoadSession.putCell_read_self {ls : LoadSession} (a v : Word) (h : ls.machine.mem.wf = true) :
    (ls.putCell a v).machine.mem.read a.toNat = v :=
  Memory.read_write_self v h

theorem LoadSession.memSameBut_putCell (ls : LoadSession) (a v : Word) :
    memSameBut a.toNat ls.machine (ls.putCell a v).machine := fun _ hb =>
  Memory.read_write_of_ne v hb

theorem memSameBut_trans {a : Nat} {s t u : State} (hst : memSameBut a s t) (htu : memSameBut a t u) :
    memSameBut a s u := fun b hb =>
  (htu b hb).trans (hst b hb)

theorem Segment.holds_iff {seg : Segment} {a : Nat} :
    seg.holds a = true ↔ seg.minAddr ≤ a ∧ (a : Int) ≤ seg.maxAddr := by
  simp [Segment.holds]

/-- Before the Header the Text record's fields are not looked at (R150(a)). -/
theorem parseRecord_text_awaitingHeader {ls : LoadSession} (h : ls.phase = .awaitingHeader) (fields : Line) :
    parseRecord ls ('T' :: fields) = .error .le2 := by
  simp [parseRecord, h]

theorem parseRecord_text_segmentOpen {ls : LoadSession} {seg : Segment} (h : ls.phase = .segmentOpen seg)
    (fields : Line) : parseRecord ls ('T' :: fields) = textRecord ls seg fields := by
  simp [parseRecord, h]

/-- A Text record whose two fields are hexadecimal: the bounds decide. -/
theorem textRecord_of_hexFields {ls : LoadSession} {seg : Segment} {a v : Word} {a1 a2 a3 a4 v1 v2 v3 v4 : Char}
    (ha : hexField a1 a2 a3 a4 = some a.toNat) (hv : hexField v1 v2 v3 v4 = some v.toNat) :
    textRecord ls seg [a1, a2, a3, a4, v1, v2, v3, v4] =
      if seg.holds a.toNat then .ok (ls.putCell a v) else .error .le1 := by
  simp [textRecord, ha, hv, LoadSession.putCell]

/-- A Text record for an address in the open segment puts its value there. -/
theorem parseRecord_text_inside {ls : LoadSession} {seg : Segment} {a v : Word} {a1 a2 a3 a4 v1 v2 v3 v4 : Char}
    (hopen : ls.phase = .segmentOpen seg) (hin : seg.holds a.toNat = true)
    (ha : hexField a1 a2 a3 a4 = some a.toNat) (hv : hexField v1 v2 v3 v4 = some v.toNat) :
    parseRecord ls ['T', a1, a2, a3, a4, v1, v2, v3, v4] = .ok (ls.putCell a v) := by
  rw [parseRecord_text_segmentOpen hopen, textRecord_of_hexFields ha hv, if_pos hin]

end TextRecords

/-- Settles O56: inside the segment a record puts its value, which leaves the session open and its memory canonical, so a
second record for the cell does the same again. -/
theorem textRecordWritesTheCell : Obligations.TextRecordWritesTheCell := by
  intro ls seg a v w a1 a2 a3 a4 v1 v2 v3 v4 w1 w2 w3 w4 hwf ha hv hw
  refine ⟨fun hawaiting => parseRecord_text_awaitingHeader hawaiting _, fun hopen hout => ?_, fun hopen hmin hmax => ?_⟩
  · rw [parseRecord_text_segmentOpen hopen, textRecord_of_hexFields ha hv, if_neg (mt Segment.holds_iff.1 hout)]
  · have hin : seg.holds a.toNat = true := Segment.holds_iff.2 ⟨hmin, hmax⟩
    have hopen' : (ls.putCell a v).phase = .segmentOpen seg := (ls.putCell_phase a v).trans hopen
    have hother : memSameBut a.toNat ls.machine (ls.putCell a v).machine := ls.memSameBut_putCell a v
    exact ⟨ls.putCell a v, parseRecord_text_inside hopen hin ha hv, hopen', LoadSession.putCell_read_self a v hwf, hother,
      ls.putCell_machine a v, (ls.putCell a v).putCell a w, parseRecord_text_inside hopen' hin ha hw,
      (LoadSession.putCell_phase _ a w).trans hopen', LoadSession.putCell_read_self a w (LoadSession.putCell_wf a v hwf),
      memSameBut_trans hother (LoadSession.memSameBut_putCell _ a w)⟩

end Sys2Proof.Machine

namespace Sys2Proof

/-! ## The decoder and the encoder (30_encoding.md R51, R52, R60 to R62) -/

section Encoding

theorem wellFormed_trapUnsupported {v : BitVec 8} :
    (Instr.trapUnsupported v).wellFormed = true ↔ v ∉ supportedVectors := by
  simp [Instr.wellFormed]

theorem decodeTrap_of_notMem {v : BitVec 8} (h : v ∉ supportedVectors) : decodeTrap v = .trapUnsupported v := by
  simp only [supportedVectors, List.mem_cons, List.not_mem_nil, or_false, not_or] at h
  simp only [decodeTrap, h, if_false]

/-- What opcode 15 decodes to is a well-formed TRAP, and encoding that gives the vector back. -/
theorem decodeTrap_spec (v : BitVec 8) :
    (decodeTrap v).wellFormed = true ∧ encode (decodeTrap v) = encodeTrap fieldLayout v ∧
      coveredBits (decodeTrap v) = 0xF0FF := by
  by_cases h : v ∈ supportedVectors
  · revert v
    decide
  · rw [decodeTrap_of_notMem h]
    exact ⟨wellFormed_trapUnsupported.2 h, rfl, rfl⟩

/-- A field put back where it was read is the word under the field's mask. -/
theorem placeField_fieldAt (w : Word) (lo k : Nat) :
    placeField (fieldAt w lo k) lo = w &&& placeField (BitVec.allOnes k) lo := by
  apply BitVec.eq_of_getLsbD_eq
  intro i _
  rw [BitVec.getLsbD_and, placeField_getLsbD, placeField_getLsbD, fieldAt_getLsbD, BitVec.getLsbD_allOnes]
  by_cases hlo : lo ≤ i
  · rw [Nat.add_sub_cancel' hlo, Bool.and_comm (w.getLsbD i), Bool.and_assoc, Bool.and_assoc, Bool.and_assoc]
  · simp [hlo]

theorem placeBit_bitAt (w : Word) (lo : Nat) : placeBit (bitAt w lo) lo = w &&& placeField (BitVec.allOnes 1) lo := by
  have hbit : BitVec.ofBool (bitAt w lo) = fieldAt w lo 1 :=
    BitVec.eq_of_getLsbD_eq (by simp [fieldAt_getLsbD, bitAt])
  rw [placeBit, hbit, placeField_fieldAt]

theorem fieldAt_placeBit_beside (b : Bool) (lo lo' k : Nat) (h : lo + 1 ≤ lo' ∨ lo' + k ≤ lo) :
    fieldAt (placeBit b lo) lo' k = 0 :=
  fieldAt_placeField_beside _ lo lo' k h

theorem bitAt_placeBit_beside (b : Bool) (lo i : Nat) (h : lo + 1 ≤ i ∨ i < lo) : bitAt (placeBit b lo) i = false :=
  bitAt_placeField_beside _ lo i h

theorem placeBit_false (lo : Nat) : placeBit false lo = 0#16 := by simp [placeBit, placeField]

/-! The words of each format: encoding the fields read from a word gives it back under the mask of the bits they
cover. -/

section Formats
variable {w : Word} {op : BitVec 4}

theorem placeBit_of_bitAt {b : Bool} {lo : Nat} (h : bitAt w lo = b) :
    placeBit b lo = w &&& placeField (BitVec.allOnes 1) lo := by
  rw [← h, placeBit_bitAt]

theorem placeOpcode_of_field (hop : fieldAt w 12 4 = op) : placeOpcode fieldLayout op = w &&& 0xF000 := by
  rw [← hop]
  exact placeField_fieldAt w 12 4

theorem placeReg_regOfField (lo : Nat) :
    placeField (fieldOfReg (regOfField (fieldAt w lo 3))) lo = w &&& placeField (BitVec.allOnes 3) lo := by
  rw [fieldOfReg_regOfField, placeField_fieldAt]

/-- The mode bit of format OPR is 0, so it is covered like a field (30_encoding.md R52). -/
theorem encodeOpr_of_fields (hop : fieldAt w 12 4 = op) (hmode : bitAt w fieldLayout.mode = false) :
    encodeOpr fieldLayout op (drOf fieldLayout w) (sr1Of fieldLayout w) (sr2Of fieldLayout w) = w &&& 0xFFE7 := by
  rw [← BitVec.or_zero (x := encodeOpr ..), ← placeBit_false fieldLayout.mode, placeBit_of_bitAt hmode, encodeOpr,
    placeOpcode_of_field hop]
  simp only [drOf, sr1Of, sr2Of, fieldLayout, placeReg_regOfField, ← BitVec.and_or_distrib_left]
  rfl

theorem encodeOpi_of_fields (hop : fieldAt w 12 4 = op) (hmode : bitAt w fieldLayout.mode = true) :
    encodeOpi fieldLayout op (drOf fieldLayout w) (sr1Of fieldLayout w) (imm5Of fieldLayout w) = w &&& 0xFFFF := by
  rw [encodeOpi, placeOpcode_of_field hop, placeBit_of_bitAt hmode]
  simp only [drOf, sr1Of, imm5Of, fieldLayout, placeReg_regOfField, placeField_fieldAt, ← BitVec.and_or_distrib_left]
  rfl

theorem encodePg_of_fields (hop : fieldAt w 12 4 = op) :
    encodePg fieldLayout op (drOf fieldLayout w) (pgoffset9Of fieldLayout w) = w &&& 0xFFFF := by
  rw [encodePg, placeOpcode_of_field hop]
  simp only [drOf, pgoffset9Of, fieldLayout, placeReg_regOfField, placeField_fieldAt, ← BitVec.and_or_distrib_left]
  rfl

theorem encodeJpg_of_fields {link : Bool} (hop : fieldAt w 12 4 = op) (hlink : bitAt w fieldLayout.link = link) :
    encodeJpg fieldLayout op link (pgoffset9Of fieldLayout w) = w &&& 0xF9FF := by
  rw [encodeJpg, placeOpcode_of_field hop, placeBit_of_bitAt hlink]
  simp only [pgoffset9Of, fieldLayout, placeField_fieldAt, ← BitVec.and_or_distrib_left]
  rfl

theorem encodeIdx_of_fields (hop : fieldAt w 12 4 = op) :
    encodeIdx fieldLayout op (drOf fieldLayout w) (baserOf fieldLayout w) (index6Of fieldLayout w) = w &&& 0xFFFF := by
  rw [encodeIdx, placeOpcode_of_field hop]
  simp only [drOf, baserOf, index6Of, fieldLayout, placeReg_regOfField, placeField_fieldAt,
    ← BitVec.and_or_distrib_left]
  rfl

theorem encodeJidx_of_fields {link : Bool} (hop : fieldAt w 12 4 = op) (hlink : bitAt w fieldLayout.link = link) :
    encodeJidx fieldLayout op link (baserOf fieldLayout w) (index6Of fieldLayout w) = w &&& 0xF9FF := by
  rw [encodeJidx, placeOpcode_of_field hop, placeBit_of_bitAt hlink]
  simp only [baserOf, index6Of, fieldLayout, placeReg_regOfField, placeField_fieldAt, ← BitVec.and_or_distrib_left]
  rfl

theorem encodeNot_of_fields (hop : fieldAt w 12 4 = op) :
    encodeNot fieldLayout op (drOf fieldLayout w) (sr1Of fieldLayout w) = w &&& 0xFFC0 := by
  rw [encodeNot, placeOpcode_of_field hop]
  simp only [drOf, sr1Of, fieldLayout, placeReg_regOfField, ← BitVec.and_or_distrib_left]
  rfl

theorem encodeTrap_of_fields (hop : fieldAt w 12 4 = 15) :
    encodeTrap fieldLayout (fieldAt w 0 8) = w &&& 0xF0FF := by
  rw [encodeTrap, placeOpcode_of_field hop]
  simp only [fieldLayout, placeField_fieldAt, ← BitVec.and_or_distrib_left]
  rfl

theorem encodeBr_of_fields (hop : fieldAt w 12 4 = 0) :
    encodeBr fieldLayout (bitAt w 11) (bitAt w 10) (bitAt w 9) (pgoffset9Of fieldLayout w) = w &&& 0xFFFF := by
  rw [encodeBr, placeOpcode_of_field hop]
  simp only [pgoffset9Of, fieldLayout, placeBit_bitAt, placeField_fieldAt, ← BitVec.and_or_distrib_left]
  rfl

end Formats

section Decoder
variable {w : Word}

theorem fieldAt_zero_eight (w : Word) : fieldAt w 0 8 = w.setWidth 8 := by
  apply BitVec.eq_of_getLsbD_eq
  intro i hi
  rw [fieldAt_getLsbD, BitVec.getLsbD_setWidth, Nat.zero_add]

theorem decode_of_opcode_trap (hop : fieldAt w 12 4 = 15) : decode w = decodeTrap (w.setWidth 8) := by
  have hop' : fieldAt w fieldLayout.opcode 4 = 15 := hop
  rw [decode, decodeWith, hop', ← fieldAt_zero_eight]
  rfl

/-- The decoder reads every field where the encoder places it, and there every other field of the format reads 0
(30_encoding.md R51, R52). -/
theorem decode_encode {i : Instr} (hi : i.wellFormed = true) : decode (encode i) = i := by
  cases i with
  | trapUnsupported v =>
    have hop : fieldAt (encodeTrap fieldLayout v) 12 4 = 15 := by
      simp (disch := decide) [encodeTrap, placeOpcode, fieldLayout, fieldAt_placeField_self, fieldAt_placeField_beside]
    have hvector : fieldAt (encodeTrap fieldLayout v) 0 8 = v := by
      simp (disch := decide) [encodeTrap, placeOpcode, fieldLayout, fieldAt_placeField_self, fieldAt_placeField_beside]
    have hdecode : decode (encodeTrap fieldLayout v) = decodeTrap v := by
      rw [decode_of_opcode_trap hop, ← fieldAt_zero_eight, hvector]
    exact hdecode.trans (decodeTrap_of_notMem (wellFormed_trapUnsupported.1 hi))
  | trapOut | trapPuts | trapIn | trapHalt | trapOutn | trapInn | trapRnd | dbug | ret => rfl
  | _ =>
    simp (disch := decide) [decode, decodeWith, encode, encodeWith, encodeOpr, encodeOpi, encodePg, encodeJpg,
      encodeIdx, encodeJidx, encodeNot, encodeBr, placeOpcode, fieldLayout, drOf, sr1Of, sr2Of, baserOf, imm5Of,
      index6Of, pgoffset9Of, fieldAt_placeField_self, fieldAt_placeField_beside, fieldAt_placeBit_beside,
      bitAt_placeBit_self, bitAt_placeField_beside, bitAt_placeBit_beside]

/-- A field a row's mask covers is the same in the row's match. -/
theorem fieldAt_of_and_eq {m v : Word} {lo k : Nat} (h : w &&& m = v) (hm : fieldAt m lo k = BitVec.allOnes k) :
    fieldAt w lo k = fieldAt v lo k := by
  apply BitVec.eq_of_getLsbD_eq
  intro i hi
  have hbit : m.getLsbD (lo + i) = true := by
    have hone : (fieldAt m lo k).getLsbD i = true := by rw [hm, BitVec.getLsbD_allOnes, decide_eq_true hi]
    rw [fieldAt_getLsbD] at hone
    exact (Bool.and_eq_true_iff.1 hone).2
  rw [fieldAt_getLsbD, fieldAt_getLsbD, ← h, BitVec.getLsbD_and, hbit, Bool.and_true]

theorem bitAt_of_and_eq {m v : Word} {lo : Nat} (h : w &&& m = v) (hm : bitAt m lo = true) :
    bitAt w lo = bitAt v lo := by
  have hm' : m.getLsbD lo = true := hm
  rw [bitAt, bitAt, ← h, BitVec.getLsbD_and, hm', Bool.and_true]

/-- Every word is a well-formed instruction's, but for the bits no field covers: a case per opcode (R60 to R62). -/
theorem decode_spec (w : Word) :
    (decode w).wellFormed = true ∧ encode (decode w) = w &&& coveredBits (decode w) := by
  have opcodeIs {op : BitVec 4} (h : (fieldAt w fieldLayout.opcode 4).toNat = op.toNat) : fieldAt w 12 4 = op :=
    BitVec.eq_of_toNat_eq h
  unfold decode decodeWith
  split
  case h_1 h => exact ⟨rfl, encodeBr_of_fields (opcodeIs h)⟩
  case h_2 h | h_6 h =>
    split_ifs with hmode
    · exact ⟨rfl, encodeOpi_of_fields (opcodeIs h) hmode⟩
    · exact ⟨rfl, encodeOpr_of_fields (opcodeIs h) (Bool.eq_false_of_not_eq_true hmode)⟩
  case h_5 h =>
    split_ifs with hlink
    · exact ⟨rfl, encodeJpg_of_fields (opcodeIs h) hlink⟩
    · exact ⟨rfl, encodeJpg_of_fields (opcodeIs h) (Bool.eq_false_of_not_eq_true hlink)⟩
  case h_13 h =>
    split_ifs with hlink
    · exact ⟨rfl, encodeJidx_of_fields (opcodeIs h) hlink⟩
    · exact ⟨rfl, encodeJidx_of_fields (opcodeIs h) (Bool.eq_false_of_not_eq_true hlink)⟩
  case h_3 h | h_4 h | h_11 h | h_12 h | h_15 h => exact ⟨rfl, encodePg_of_fields (opcodeIs h)⟩
  case h_7 h | h_8 h => exact ⟨rfl, encodeIdx_of_fields (opcodeIs h)⟩
  case h_9 h | h_14 h => exact ⟨rfl, placeOpcode_of_field (opcodeIs h)⟩
  case h_10 h => exact ⟨rfl, encodeNot_of_fields (opcodeIs h)⟩
  case h_16 =>
    have hlt : (fieldAt w fieldLayout.opcode 4).toNat < 16 := (fieldAt w fieldLayout.opcode 4).isLt
    have hop : fieldAt w 12 4 = 15 := opcodeIs (op := 15) (by simp only [imp_false] at *; change _ = 15; omega)
    obtain ⟨hwf, hencode, hbits⟩ := decodeTrap_spec (fieldAt w 0 8)
    exact ⟨hwf, hencode.trans ((encodeTrap_of_fields hop).trans (congrArg (w &&& ·) hbits.symm))⟩

/-- Every instruction's canonical word lies in its row. -/
theorem encode_and_mask : ∀ i : Instr, encode i &&& (rowMatchMask i).2 = (rowMatchMask i).1
  | .br n z p off => Laws.EncodesInRow.br n z p off
  | .add dr sr1 sr2 => Laws.EncodesInRow.add dr sr1 sr2
  | .addi dr sr1 imm => Laws.EncodesInRow.addi dr sr1 imm
  | .ld dr off => Laws.EncodesInRow.ld dr off
  | .st sr off => Laws.EncodesInRow.st sr off
  | .jsr off => Laws.EncodesInRow.jsr off
  | .jmp off => Laws.EncodesInRow.jmp off
  | .and dr sr1 sr2 => Laws.EncodesInRow.and dr sr1 sr2
  | .andi dr sr1 imm => Laws.EncodesInRow.andi dr sr1 imm
  | .ldr dr baser idx => Laws.EncodesInRow.ldr dr baser idx
  | .str sr baser idx => Laws.EncodesInRow.str sr baser idx
  | .dbug => Laws.EncodesInRow.dbug
  | .not dr sr => Laws.EncodesInRow.not dr sr
  | .ldi dr off => Laws.EncodesInRow.ldi dr off
  | .sti sr off => Laws.EncodesInRow.sti sr off
  | .jsrr baser idx => Laws.EncodesInRow.jsrr baser idx
  | .jmpr baser idx => Laws.EncodesInRow.jmpr baser idx
  | .ret => Laws.EncodesInRow.ret
  | .lea dr off => Laws.EncodesInRow.lea dr off
  | .trapOut => Laws.EncodesInRow.trapOut
  | .trapPuts => Laws.EncodesInRow.trapPuts
  | .trapIn => Laws.EncodesInRow.trapIn
  | .trapHalt => Laws.EncodesInRow.trapHalt
  | .trapOutn => Laws.EncodesInRow.trapOutn
  | .trapInn => Laws.EncodesInRow.trapInn
  | .trapRnd => Laws.EncodesInRow.trapRnd
  | .trapUnsupported v => Laws.EncodesInRow.trapUnsupported v

/-- A row's mask looks at no ignored bit. -/
theorem coveredBits_and_mask (i : Instr) : coveredBits i &&& (rowMatchMask i).2 = (rowMatchMask i).2 := by
  cases i <;> simp only [coveredBits, rowMatchMask] <;> rfl

/-- A word lies in the row of the instruction it decodes to: its ignored bits do not matter. -/
theorem decode_matches_row (w : Word) : w &&& (rowMatchMask (decode w)).2 = (rowMatchMask (decode w)).1 := by
  rw [← coveredBits_and_mask, ← BitVec.and_assoc, ← (decode_spec w).2, encode_and_mask]

/-- A word that matches a row has the row's opcode, and its mode or link bit or vector where the mask covers it, and the
decoder looks at nothing else to choose the row. -/
theorem rowMatchMask_decode_of_matches {w : Word} {j : Instr} (h : w &&& (rowMatchMask j).2 = (rowMatchMask j).1)
    (hv : (rowMatchMask j).1 = 0xF000 → w.setWidth 8 ∉ supportedVectors) :
    rowMatchMask (decode w) = rowMatchMask j := by
  cases j <;> simp only [rowMatchMask] at h hv ⊢
  case trapUnsupported v =>
    have hop : fieldAt w 12 4 = 15 := fieldAt_of_and_eq h rfl
    rw [decode_of_opcode_trap hop, decodeTrap_of_notMem (hv trivial)]
  case trapOut | trapPuts | trapIn | trapHalt | trapOutn | trapInn | trapRnd =>
    have hop : fieldAt w 12 4 = 15 := fieldAt_of_and_eq h rfl
    have hvector := fieldAt_of_and_eq (lo := 0) (k := 8) h rfl
    rw [decode_of_opcode_trap hop, ← fieldAt_zero_eight, hvector]
    rfl
  case add | addi | and | andi =>
    have hop := fieldAt_of_and_eq (lo := 12) (k := 4) h rfl
    have hmode := bitAt_of_and_eq (lo := 5) h rfl
    rw [decode, decodeWith, show fieldAt w fieldLayout.opcode 4 = _ from hop,
      show bitAt w fieldLayout.mode = _ from hmode]
    rfl
  case jsr | jmp | jsrr | jmpr =>
    have hop := fieldAt_of_and_eq (lo := 12) (k := 4) h rfl
    have hlink := bitAt_of_and_eq (lo := 11) h rfl
    rw [decode, decodeWith, show fieldAt w fieldLayout.opcode 4 = _ from hop,
      show bitAt w fieldLayout.link = _ from hlink]
    rfl
  all_goals
    have hop := fieldAt_of_and_eq (lo := 12) (k := 4) h rfl
    rw [decode, decodeWith, show fieldAt w fieldLayout.opcode 4 = _ from hop]
    rfl

theorem row_decodeTrap_ne : ∀ v ∈ supportedVectors, (rowMatchMask (decodeTrap v)).1 ≠ 0xF000 := by decide

/-- A word in the row of the unsupported TRAPs carries no supported vector: with one it would be that vector's TRAP. -/
theorem setWidth_notMem_of_row {w : Word} (h : (rowMatchMask (decode w)).1 = 0xF000) :
    w.setWidth 8 ∉ supportedVectors := by
  intro hmem
  have hmatch := decode_matches_row w
  have hmask : (rowMatchMask (decode w)).2 = 0xF000 := by
    revert h
    cases decode w <;> simp [rowMatchMask]
  rw [h, hmask] at hmatch
  have hop : fieldAt w 12 4 = 15 := fieldAt_of_and_eq hmatch rfl
  rw [decode_of_opcode_trap hop] at h
  exact row_decodeTrap_ne _ hmem h

end Decoder

end Encoding

/-- Settles O1: every field is read where it was placed. -/
theorem decodeOfEncodeIsTheInstruction : Obligations.DecodeOfEncodeIsTheInstruction := fun _ => decode_encode

/-- Settles O2: for each opcode, the fields read and placed again are the word under the bits they cover. -/
theorem encodeOfDecodeClearsOnlyIgnoredBits : Obligations.EncodeOfDecodeClearsOnlyIgnoredBits := decode_spec

/-- Settles O3: a word lies in its own row, and in no other that it matches. -/
theorem decoderFollowsTheOpcodeMap : Obligations.DecoderFollowsTheOpcodeMap := by
  intro w j _
  refine ⟨fun hrow => ?_, fun ⟨hmatch, hvector⟩ => rowMatchMask_decode_of_matches hmatch hvector⟩
  rw [← hrow]
  exact ⟨decode_matches_row w, setWidth_notMem_of_row⟩

/-- Settles O4: the eleven words, decoded. -/
theorem specDecodingTableIsReproduced : Obligations.SpecDecodingTableIsReproduced := by
  unfold Obligations.SpecDecodingTableIsReproduced
  decide

end Sys2Proof

namespace Sys2Proof.Machine

/-! ## What a step does to each part of the state, over all instructions -/

section Inn

theorem State.writeDr_reg_self (s : State) (r : Reg) : s.writeDr r (s.reg r) = s.setCc (s.reg r) := by
  simp [State.writeDr, State.setReg, State.reg]

theorem takeInt_malformed_eq_writeDr (s : State) :
    State.takeInt params .malformed s = (s.emit [.diag (.inputError none)]).writeDr .r0 (s.reg .r0) :=
  (takeInt_malformed s).trans (State.writeDr_reg_self (s.emit _) .r0).symm

/-- Whatever the answer, INN writes R0 and the flag: with malformed input R0 gets the value it had. -/
theorem takeInt_eq_writeDr (r : IntAnswer) (s : State) :
    ∃ v es, State.takeInt params r s = (s.emit es).writeDr .r0 v := by
  cases r with
  | number k => exact ⟨_, _, takeInt_number s k⟩
  | malformed => exact ⟨_, _, takeInt_malformed_eq_writeDr s⟩

end Inn

section Hold
variable {i : Instr} {s : State}

theorem inputMissing_iff :
    inputMissing i s = true ↔ (i = .trapIn ∧ s.charIn = []) ∨ (i = .trapInn ∧ s.intIn = []) := by
  cases i <;> simp [inputMissing]

theorem exec_held (h : inputMissing i s = true) : exec i s = .next s := by
  obtain ⟨rfl, hc⟩ | ⟨rfl, hc⟩ := inputMissing_iff.1 h
  · exact exec_trapIn_nil s hc
  · exact exec_trapInn_nil s hc

theorem storeTarget_of_inputMissing (h : inputMissing i s = true) : storeTarget i s = none := by
  obtain ⟨rfl, _⟩ | ⟨rfl, _⟩ := inputMissing_iff.1 h <;> rfl

end Hold

section Fields

/-- The memory after an instruction's store, if it stores. -/
def memAfter (i : Instr) (s : State) : Memory :=
  match storeTarget i s with
  | some (a, v) => s.mem.write a.toNat v
  | none => s.mem

/-- What an instruction that is not held may change but for the history and the halted flag: pc and the flag only if it
writes them, the registers its row of 10_state.md R12 names, the cell it stores to, and the one input it takes. -/
structure Confined (i : Instr) (s t : State) : Prop where
  pc : writesPc i = false → t.pc = s.pc + 1
  cc : flagSource i = none → t.cc = s.cc
  regs : regsSameBut (writtenRegs i) s t
  mem : t.mem = memAfter i s
  charIn : t.charIn = if i = .trapIn then s.charIn.tail else s.charIn
  intIn : t.intIn = if i = .trapInn then s.intIn.tail else s.intIn
  rndIn : t.rndIn = if i = .trapRnd then s.rndIn.tail else s.rndIn
  rndCount : t.rndCount = if i = .trapRnd then s.rndCount + 1 else s.rndCount

/-- Each case names the state the instruction answers; the laws of its updates then give every field. -/
theorem exec_confined {i : Instr} {s t : State} (hready : inputMissing i s = false) (h : exec i s = .next t) :
    Confined i s t := by
  cases i with
  | add | addi | and | andi | not | ld | ldi | lea | st | sti | jsr | jmp | ret | dbug | trapOut | trapOutn | trapRnd
  | trapUnsupported =>
    cases h
    constructor <;> simp +contextual [regsSameBut, writtenRegs, memAfter, storeTarget, flagSource, writesPc]
  | trapHalt =>
    cases h
    constructor <;> simp +contextual [regsSameBut, writtenRegs, memAfter, storeTarget, State.reg, Regs.get_set]
  | br n z p off =>
    rw [exec_br] at h
    cases h
    by_cases htaken : branchTaken n z p s.cc = true <;>
      constructor <;> simp [htaken, regsSameBut, writtenRegs, memAfter, storeTarget, writesPc]
  | ldr | str | jsrr | jmpr =>
    simp only [exec_ldr, exec_str, exec_jsrr, exec_jmpr] at h
    split_ifs at h
    cases h
    constructor <;> simp +contextual [regsSameBut, writtenRegs, memAfter, storeTarget, flagSource, writesPc]
  | trapPuts =>
    cases hs : scanString .lowByteZero s.mem (65536 - (s.reg .r0).toNat) (s.reg .r0) with
    | none => rw [exec_trapPuts_none s hs] at h; cases h
    | some codes =>
      rw [exec_trapPuts_some s hs] at h
      cases h
      constructor <;> simp +contextual [regsSameBut, writtenRegs, memAfter, storeTarget]
  | trapIn =>
    cases hc : s.charIn with
    | nil => simp [inputMissing, hc] at hready
    | cons c rest =>
      rw [exec_trapIn_cons s hc] at h
      cases h
      constructor <;>
        simp +contextual [hc, regsSameBut, writtenRegs, memAfter, storeTarget, flagSource, State.reg, Regs.get_set]
  | trapInn =>
    cases hc : s.intIn with
    | nil => simp [inputMissing, hc] at hready
    | cons r rest =>
      obtain ⟨v, es, htake⟩ := takeInt_eq_writeDr r (State.emit { s.beginCycle with intIn := rest } [.inInt r])
      rw [exec_trapInn_cons s hc, htake] at h
      cases h
      constructor <;>
        simp +contextual [hc, regsSameBut, writtenRegs, memAfter, storeTarget, flagSource, State.reg, Regs.get_set]

variable {i : Instr} {s t : State}

theorem exec_held_or_confined (h : exec i s = .next t) : t = s ∨ Confined i s t := by
  cases hready : inputMissing i s with
  | true =>
    rw [exec_held hready] at h
    exact .inl (Host.Outcome.next.inj h).symm
  | false => exact .inr (exec_confined hready h)

theorem memAfter_of_store {a v : Word} (h : storeTarget i s = some (a, v)) : memAfter i s = s.mem.write a.toNat v := by
  rw [memAfter, h]

theorem memAfter_of_no_store (h : storeTarget i s = none) : memAfter i s = s.mem := by
  rw [memAfter, h]

theorem memAfter_wf (h : s.mem.wf = true) : (memAfter i s).wf = true := by
  cases hstore : storeTarget i s with
  | none => rwa [memAfter_of_no_store hstore]
  | some c => exact memAfter_of_store hstore ▸ Memory.wf_write c.2 c.1.isLt h

/-- The memory after an instruction, held or not. -/
theorem exec_mem (h : exec i s = .next t) : t.mem = memAfter i s := by
  cases hready : inputMissing i s with
  | true =>
    rw [exec_held hready] at h
    cases h
    rw [memAfter_of_no_store (storeTarget_of_inputMissing hready)]
  | false => exact (exec_confined hready h).mem

/-- HALT stores nothing, so an engine that stored is as Running as it was. -/
theorem exec_store_halted {a v : Word} (hstore : storeTarget i s = some (a, v)) (h : exec i s = .next t) :
    t.halted = s.halted := by
  have hi : i ≠ .trapHalt := by rintro rfl; cases hstore
  rw [exec_next_halted h, decide_eq_false hi, Bool.or_false]

end Fields

/-! ### The history (60_exceptions.md R123, 43_trap_and_debug.md R110) -/

/-- What an instruction may record after its fetch: no PcWrap, and only justified events. -/
def Event.reportedBy (i : Instr) (e : Event) : Prop :=
  e ≠ .diag .pcWrap ∧ (i.wellFormed = true → e.justified)

/-- From `s` to `t` the fetch was recorded, and after it only what the instruction may report. -/
def Reports (i : Instr) (s t : State) : Prop :=
  ∃ es, t.events = s.events ++ fetchReport s.pc ++ es ∧ ∀ e ∈ es, e.reportedBy i

section History
variable {i : Instr} {s t : State}

theorem memRead_reportedBy (a : Word) : (Event.memRead a).reportedBy i := ⟨nofun, fun _ => trivial⟩

theorem memWrite_reportedBy (a v : Word) : (Event.memWrite a v).reportedBy i := ⟨nofun, fun _ => trivial⟩

theorem crossReport_reportedBy (ia : Word) (off : BitVec 9) :
    ∀ e ∈ crossReport ia (pgaddr (ia + 1) off), e.reportedBy i := by
  intro e he
  unfold crossReport at he
  split_ifs at he with hlast
  · obtain rfl := List.mem_singleton.1 he
    have hpage : page (pgaddr (ia + 1) off) = page (ia + 1) := page_pgaddr ..
    have hother : page (ia + 1) ≠ page ia := fun h => (page_succ_eq_iff ia).1 h hlast
    exact ⟨nofun, fun _ => ⟨hlast, hpage ▸ hother, hpage⟩⟩
  · cases he

theorem overflowEvents_reportedBy (a b : Word) : ∀ e ∈ overflowEvents a b, e.reportedBy i := by
  intro e he
  unfold overflowEvents at he
  split_ifs at he with hover
  · obtain rfl := List.mem_singleton.1 he
    exact ⟨nofun, fun _ => (overflow_iff_toInt a b).1 hover⟩
  · cases he

theorem scanReads_reportedBy (count : Nat) (a : Word) : ∀ e ∈ scanReads count a, e.reportedBy i := by
  intro e he
  rw [scanReads_eq] at he
  obtain ⟨k, _, rfl⟩ := List.mem_map.1 he
  exact memRead_reportedBy _

/-- The codes PUTS emits stand before the terminator, so none is zero. -/
theorem scanString_ne_zero {m : Memory} {cells : Nat} {a : Word} {codes : List Byte}
    (h : scanString .lowByteZero m cells a = some codes) : ∀ c ∈ codes, c ≠ 0 := by
  intro c hc
  obtain ⟨k, hk, rfl⟩ := List.getElem_of_mem hc
  obtain ⟨_, hcodes, _⟩ := scanString_eq_some.1 h
  obtain ⟨hend, hcode⟩ := hcodes k hk
  rw [List.getElem?_eq_getElem hk, Option.some.injEq] at hcode
  rw [hcode]
  exact of_decide_eq_false hend

theorem signed_range (v : Word) : -32768 ≤ signed v ∧ signed v ≤ 32767 :=
  ⟨BitVec.le_toInt v, Int.le_of_lt_add_one BitVec.toInt_lt⟩

theorem reports_beginCycle (s : State) : Reports i s s.beginCycle :=
  ⟨[], by simp [cycleEvents_eq], nofun⟩

theorem Reports.emit {es : List Event} (h : Reports i s t) (hes : ∀ e ∈ es, e.reportedBy i) :
    Reports i s (t.emit es) := by
  obtain ⟨before, hevents, hbefore⟩ := h
  exact ⟨before ++ es, by simp [hevents], fun e he => (List.mem_append.1 he).elim (hbefore e) (hes e)⟩

theorem Reports.emit_one {e : Event} (h : Reports i s t) (he : e.reportedBy i) : Reports i s (t.emit [e]) :=
  h.emit (by simpa using he)

theorem reports_formPage (s : State) (off : BitVec 9) : Reports i s (s.formPage off) :=
  s.formPage_eq off ▸ (reports_beginCycle s).emit (crossReport_reportedBy s.pc off)

/-- INN reports an InputError for an input error, and nothing for a number in range. -/
theorem Reports.takeInt (h : Reports i s t) (r : IntAnswer) : Reports i s (State.takeInt params r t) := by
  cases r with
  | number k =>
    rw [takeInt_number]
    refine h.emit fun e he => ?_
    split_ifs at he with hrange
    · cases he
    · obtain rfl := List.mem_singleton.1 he
      exact ⟨nofun, fun _ => by simp only [Event.justified]; omega⟩
  | malformed => exact h.emit_one ⟨nofun, fun _ => trivial⟩

/-- Each case follows the instruction's reports in their order; what it writes to registers, flag and pc after the last
of them leaves the history alone. -/
theorem exec_reports (hready : inputMissing i s = false) (h : exec i s = .next t) : Reports i s t := by
  cases i with
  | add | addi =>
    cases h
    exact (reports_beginCycle s).emit (overflowEvents_reportedBy _ _)
  | and | andi | not | ret | trapHalt | trapRnd =>
    cases h
    exact reports_beginCycle s
  | jsr off | jmp off | lea _ off =>
    cases h
    exact reports_formPage s off
  | br n z p off =>
    rw [exec_br] at h
    cases h
    split_ifs
    · exact reports_formPage s off
    · exact reports_beginCycle s
  | ld _ off =>
    cases h
    exact (reports_formPage s off).emit_one (memRead_reportedBy _)
  | st _ off =>
    cases h
    exact (reports_formPage s off).emit_one (memWrite_reportedBy _ _)
  | ldi _ off =>
    cases h
    exact ((reports_formPage s off).emit_one (memRead_reportedBy _)).emit_one (memRead_reportedBy _)
  | sti _ off =>
    cases h
    exact ((reports_formPage s off).emit_one (memRead_reportedBy _)).emit_one (memWrite_reportedBy _ _)
  | ldr =>
    rw [exec_ldr] at h
    split_ifs at h
    cases h
    exact (reports_beginCycle s).emit_one (memRead_reportedBy _)
  | str =>
    rw [exec_str] at h
    split_ifs at h
    cases h
    exact (reports_beginCycle s).emit_one (memWrite_reportedBy _ _)
  | jsrr | jmpr =>
    simp only [exec_jsrr, exec_jmpr] at h
    split_ifs at h
    cases h
    exact reports_beginCycle s
  | dbug | trapOut =>
    cases h
    exact (reports_beginCycle s).emit_one ⟨nofun, fun _ => trivial⟩
  | trapOutn =>
    cases h
    exact (reports_beginCycle s).emit_one ⟨nofun, fun _ => signed_range _⟩
  | trapUnsupported =>
    cases h
    exact (reports_beginCycle s).emit_one ⟨nofun, wellFormed_trapUnsupported.1⟩
  | trapPuts =>
    cases hs : scanString .lowByteZero s.mem (65536 - (s.reg .r0).toNat) (s.reg .r0) with
    | none => rw [exec_trapPuts_none s hs] at h; cases h
    | some codes =>
      rw [exec_trapPuts_some s hs, ← State.emit_emit] at h
      cases h
      exact ((reports_beginCycle s).emit (scanReads_reportedBy _ _)).emit_one ⟨nofun, fun _ => scanString_ne_zero hs⟩
  | trapIn =>
    cases hc : s.charIn with
    | nil => simp [inputMissing, hc] at hready
    | cons c rest =>
      rw [exec_trapIn_cons s hc] at h
      cases h
      exact (reports_beginCycle s).emit_one ⟨nofun, fun _ => trivial⟩
  | trapInn =>
    cases hc : s.intIn with
    | nil => simp [inputMissing, hc] at hready
    | cons r rest =>
      rw [exec_trapInn_cons s hc] at h
      cases h
      have hanswer : Reports .trapInn s (State.emit { s.beginCycle with intIn := rest } [.inInt r]) :=
        (reports_beginCycle s).emit_one ⟨nofun, fun _ => trivial⟩
      exact hanswer.takeInt r

theorem exec_appends (h : exec i s = .next t) : s.events <+: t.events := by
  cases hready : inputMissing i s with
  | true =>
    rw [exec_held hready] at h
    cases h
    exact ⟨[], List.append_nil _⟩
  | false =>
    obtain ⟨es, hevents, _⟩ := exec_reports hready h
    exact ⟨fetchReport s.pc ++ es, by rw [hevents, List.append_assoc]⟩

theorem fetchReport_justified (ia : Word) : ∀ e ∈ fetchReport ia, e.justified := by
  unfold fetchReport
  split <;> simp [Event.justified]

theorem exec_keeps_inv (hi : i.wellFormed = true) (hs : s.Inv) (h : exec i s = .next t) : t.Inv := by
  obtain ⟨hwf, hbefore⟩ := hs
  refine ⟨exec_mem h ▸ memAfter_wf hwf, ?_⟩
  cases hready : inputMissing i s with
  | true =>
    rw [exec_held hready] at h
    cases h
    exact hbefore
  | false =>
    obtain ⟨es, hevents, hes⟩ := exec_reports hready h
    intro e he
    rw [hevents, List.mem_append, List.mem_append] at he
    obtain (he | he) | he := he
    · exact hbefore e he
    · exact fetchReport_justified s.pc e he
    · exact (hes e he).2 hi

end History

/-! ### Faults (60_exceptions.md R121) -/

section Faults

theorem toNat_add_ofNat {a : Word} {k : Nat} (h : a.toNat + k < 65536) :
    (a + BitVec.ofNat 16 k).toNat = a.toNat + k := by
  rw [BitVec.toNat_add, BitVec.toNat_ofNat]
  omega

/-- The scan of PUTS runs out exactly when no cell from its first one up to 65535 has a zero low byte. -/
theorem scanString_eq_none_iff_lowByte {m : Memory} {a : Word} :
    scanString .lowByteZero m (65536 - a.toNat) a = none ↔
      ∀ k, a.toNat ≤ k → k < 65536 → (m.read k).toNat % 256 ≠ 0 := by
  have hends (w : Word) : endsString .lowByteZero w = false ↔ w.toNat % 256 ≠ 0 := by
    rw [← Bool.not_eq_true, endsString_lowByteZero]
  simp only [scanString_eq_none, hends]
  constructor
  · intro h k hk hlt
    have hcell := h (k - a.toNat) (by omega)
    rwa [toNat_add_ofNat (by omega), Nat.add_sub_cancel' hk] at hcell
  · intro h k hk
    rw [toNat_add_ofNat (by omega)]
    exact h _ (by omega) (by omega)

/-- An instruction with an indexed address faults exactly when the address is above 65535. -/
theorem indexed_fault_iff {n : Nat} {t : State} {ia : Word} {f : Fault} :
    (if n < 65536 then .next t else .fault (.addressOutOfRange ia n) : Out) = .fault f ↔
      ∃ a, 65535 < a ∧ f = .addressOutOfRange ia a ∧ a = n := by
  constructor
  · intro h
    split_ifs at h with hn
    cases h
    exact ⟨n, by omega, rfl, rfl⟩
  · rintro ⟨a, ha, rfl, rfl⟩
    rw [if_neg (by omega)]

theorem exec_fault_iff (i : Instr) (s : State) (f : Fault) :
    exec i s = .fault f ↔ ∃ a, 65535 < a ∧ f = .addressOutOfRange s.pc a ∧ formsAddress i s a := by
  cases i with
  | ldr => rw [exec_ldr]; exact indexed_fault_iff
  | str => rw [exec_str]; exact indexed_fault_iff
  | jmpr => rw [exec_jmpr]; exact indexed_fault_iff
  | jsrr => rw [exec_jsrr, jsrrBase_eq]; exact indexed_fault_iff
  | trapPuts =>
    cases hs : scanString .lowByteZero s.mem (65536 - (s.reg .r0).toNat) (s.reg .r0) with
    | none =>
      rw [exec_trapPuts_none s hs]
      constructor
      · intro h
        cases h
        exact ⟨65536, by decide, rfl, rfl, scanString_eq_none_iff_lowByte.1 hs⟩
      · rintro ⟨a, _, rfl, rfl, _⟩
        rfl
    | some codes =>
      rw [exec_trapPuts_some s hs]
      refine ⟨nofun, fun ⟨a, _, _, _, hnone⟩ => ?_⟩
      rw [scanString_eq_none_iff_lowByte.2 hnone] at hs
      cases hs
  | br => rw [exec_br]; exact ⟨nofun, fun ⟨_, _, _, h⟩ => h.elim⟩
  | trapIn =>
    cases hc : s.charIn with
    | nil => rw [exec_trapIn_nil s hc]; exact ⟨nofun, fun ⟨_, _, _, h⟩ => h.elim⟩
    | cons => rw [exec_trapIn_cons s hc]; exact ⟨nofun, fun ⟨_, _, _, h⟩ => h.elim⟩
  | trapInn =>
    cases hc : s.intIn with
    | nil => rw [exec_trapInn_nil s hc]; exact ⟨nofun, fun ⟨_, _, _, h⟩ => h.elim⟩
    | cons => rw [exec_trapInn_cons s hc]; exact ⟨nofun, fun ⟨_, _, _, h⟩ => h.elim⟩
  | _ => exact ⟨nofun, fun ⟨_, _, _, h⟩ => h.elim⟩

theorem exec_ne_refused (i : Instr) (s : State) (r : Refusal) : exec i s ≠ .refused r := by
  cases i with
  | ldr | str | jsrr | jmpr =>
    simp only [exec_ldr, exec_str, exec_jsrr, exec_jmpr]
    split_ifs <;> nofun
  | br => rw [exec_br]; nofun
  | trapPuts =>
    cases hs : scanString .lowByteZero s.mem (65536 - (s.reg .r0).toNat) (s.reg .r0) with
    | none => rw [exec_trapPuts_none s hs]; nofun
    | some codes => rw [exec_trapPuts_some s hs]; nofun
  | trapIn =>
    cases hc : s.charIn with
    | nil => rw [exec_trapIn_nil s hc]; nofun
    | cons => rw [exec_trapIn_cons s hc]; nofun
  | trapInn =>
    cases hc : s.intIn with
    | nil => rw [exec_trapInn_nil s hc]; nofun
    | cons => rw [exec_trapInn_cons s hc]; nofun
  | _ => nofun

end Faults

/-! ### The step (10_state.md R14, R20) and memory's zero cells (20_memory.md R33) -/

section Step
variable {s t : State}

theorem step_running (h : s.halted = false) : step s = exec (decode s.fetchWord) s := by
  rw [step, h]
  rfl

theorem step_halted (h : s.halted = true) : step s = .refused .engineHalted := by
  rw [step, h]
  rfl

theorem exec_of_step (h : step s = .next t) : exec (decode s.fetchWord) s = .next t := by
  cases hrun : s.halted with
  | true => rw [step_halted hrun] at h; cases h
  | false => rwa [step_running hrun] at h

theorem decode_zero : decode 0 = .br false false false 0 := by decide

/-- A cell that reads 0 is not listed, so writing 0 to it changes nothing. -/
theorem Memory.write_zero {m : Memory} {a : Nat} (hm : m.wf = true) (ha : a < 65536) (h0 : m.read a = 0) :
    m.write a 0 = m := by
  refine Memory.extFrom (Memory.wf_write 0 ha hm) hm fun b => ?_
  by_cases hb : b = a
  · rw [hb, Memory.read_write_self 0 hm, h0]
  · rw [Memory.read_write_of_ne 0 hb]

/-- Writing 0 over a value takes the cell's entry away again. -/
theorem Memory.write_write_zero {m : Memory} {a : Nat} (v : Word) (hm : m.wf = true) (ha : a < 65536)
    (h0 : m.read a = 0) : (m.write a v).write a 0 = m := by
  have hwf := Memory.wf_write v ha hm
  refine Memory.extFrom (Memory.wf_write 0 ha hwf) hm fun b => ?_
  by_cases hb : b = a
  · rw [hb, Memory.read_write_self 0 hwf, h0]
  · rw [Memory.read_write_of_ne 0 hb, Memory.read_write_of_ne v hb]

end Step

/-- Settles O5. -/
theorem stepRunsTheDecodedInstruction : Obligations.StepRunsTheDecodedInstruction := by
  rintro s _ hrun rfl
  exact step_running hrun

/-- Settles O6. -/
theorem haltedEngineHasNoStep : Obligations.HaltedEngineHasNoStep := fun _ => step_halted

/-- Settles O7: exec never refuses, and its only fault carries an address above 65535. -/
theorem everyWordExecutes : Obligations.EveryWordExecutes := by
  intro s hrun
  rw [step_running hrun]
  cases h : exec (decode s.fetchWord) s with
  | next t => exact .inl ⟨t, rfl⟩
  | fault f =>
    obtain ⟨a, ha, rfl, _⟩ := (exec_fault_iff _ _ _).1 h
    exact .inr ⟨a, ha, rfl⟩
  | refused r => exact absurd h (exec_ne_refused _ _ _)

/-- Settles O8: the fetch is reported first, and no instruction reports a PcWrap of its own. -/
theorem cycleAdvancesPcAndReportsWrap : Obligations.CycleAdvancesPcAndReportsWrap := by
  intro i s t hready h
  obtain ⟨es, hevents, hes⟩ := exec_reports hready h
  refine ⟨fun hpc => ?_, es, hevents, fun hwrap => (hes _ hwrap).1 rfl⟩
  rw [(exec_confined hready h).pc hpc]
  exact BitVec.toNat_add ..

/-- Settles O10: a held step changes nothing, and any other is confined. -/
theorem otherInstructionsLeaveTheFlag : Obligations.OtherInstructionsLeaveTheFlag := by
  intro i s t hflag h
  obtain rfl | hconfined := exec_held_or_confined h
  · rfl
  · exact hconfined.cc hflag

/-- Settles O12: a held step changes nothing, and any other is confined. -/
theorem registerWritesAreConfined : Obligations.RegisterWritesAreConfined := by
  intro i s t h
  obtain rfl | hconfined := exec_held_or_confined h
  · exact fun _ _ => rfl
  · exact hconfined.regs

/-- Settles O14: the memory after the instruction is the one before it with its store, if it stores. -/
theorem onlyStoresWriteMemory : Obligations.OnlyStoresWriteMemory := by
  intro i s t hwf h
  have hmem := exec_mem h
  split
  next a v hstore =>
    rw [memAfter_of_store hstore] at hmem
    exact ⟨hmem ▸ Memory.read_write_self v hwf, fun b hb => hmem ▸ Memory.read_write_of_ne v hb⟩
  next hstore =>
    rw [memAfter_of_no_store hstore] at hmem
    exact fun a => by rw [hmem]

/-- Settles O15: the four inputs are fields a step that is not held is confined in. -/
theorem inputsAreTakenOneByOne : Obligations.InputsAreTakenOneByOne := by
  intro i s t hready h
  have hconfined := exec_confined hready h
  exact ⟨hconfined.charIn, hconfined.intIn, hconfined.rndIn, hconfined.rndCount⟩

/-- Settles O16: the two logs are read off the history, which a step only appends to. -/
theorem historyIsAppendOnly : Obligations.HistoryIsAppendOnly := by
  intro s t h
  have hevents := exec_appends (exec_of_step h)
  exact ⟨hevents, State.logs_prefix hevents⟩

/-- Settles O17: what a word decodes to is well-formed, and every well-formed instruction keeps the invariant. -/
theorem stepKeepsTheInvariant : Obligations.StepKeepsTheInvariant := fun s _ hs h =>
  exec_keeps_inv (decode_spec s.fetchWord).1 hs (exec_of_step h)

/-- Settles O18: the empty memory is canonical, and there is no event. -/
theorem resetHasTheInvariant : Obligations.ResetHasTheInvariant := ⟨Memory.wf_reset, nofun⟩

/-- Settles O19: a case per constructor, of which five form an address that can be out of range. -/
theorem faultExactlyOnAddressAbove65535 : Obligations.FaultExactlyOnAddressAbove65535 := exec_fault_iff

/-- Settles O20: every field of the reset state is a literal. -/
theorem resetStateIsAsStated : Obligations.ResetStateIsAsStated :=
  ⟨fun r => by cases r <;> rfl, rfl, rfl, fun _ => rfl, rfl, rfl, rfl, rfl, rfl, rfl, rfl, rfl⟩

/-- Settles O21: canonical memories that read alike are the same data, and the zero word is a branch on no flag. -/
theorem unwrittenCellsHoldZero : Obligations.UnwrittenCellsHoldZero := by
  refine ⟨fun _ => rfl, fun m a v hm ha => ⟨Memory.read_write_self 0 hm, fun h0 => ?_⟩, fun s hrun h0 => ?_⟩
  · exact ⟨Memory.write_zero hm ha h0, Memory.write_write_zero v hm ha h0⟩
  · have hstep : step s = .next s.beginCycle := by
      rw [step_running hrun, State.fetchWord, State.cell, h0, decode_zero, exec_br]
      cases s.cc <;> rfl
    exact ⟨_, hstep, jumped_beginCycle_jump s (s.pc + 1)⟩

/-- Settles O22: the next fetch reads the cell just stored to, and the engine is still Running. -/
theorem storeIsSeenByTheNextFetch : Obligations.StoreIsSeenByTheNextFetch := by
  intro i s t v hwf hrun h hstore
  have hfetch : t.fetchWord = v := by
    rw [State.fetchWord, State.cell, exec_mem h, memAfter_of_store hstore, Memory.read_write_self v hwf]
  rw [step_running ((exec_store_halted hstore h).trans hrun), hfetch]

end Sys2Proof.Machine

namespace Sys2Proof.Machine

/-! ## The registers an instruction reads (10_state.md R12) -/

/-- What is left, after an instruction that writes the registers listed, of a value `v` put in `r` before it. -/
def State.changed (t : State) (written : List Reg) (r : Reg) (v : Word) : State :=
  if r ∈ written then t else t.setReg r v

section RegisterReads

section Updates
variable (s : State) (r : Reg) (v : Word)

@[simp] theorem State.changed_nil : s.changed [] r v = s.setReg r v := rfl

@[simp] theorem State.beginCycle_setReg : (s.setReg r v).beginCycle = s.beginCycle.setReg r v := rfl
@[simp] theorem State.formPage_setReg (off : BitVec 9) :
    (s.setReg r v).formPage off = (s.formPage off).setReg r v := rfl
@[simp] theorem State.emit_setReg (es : List Event) : (s.setReg r v).emit es = (s.emit es).setReg r v := rfl
@[simp] theorem State.jump_setReg (t : Word) : (s.setReg r v).jump t = (s.jump t).setReg r v := rfl
@[simp] theorem State.storeCell_setReg (a x : Word) : (s.setReg r v).storeCell a x = (s.storeCell a x).setReg r v := rfl
@[simp] theorem State.takeDraw_setReg : (s.setReg r v).takeDraw = s.takeDraw.setReg r v := rfl
@[simp] theorem State.nextDraw_setReg : (s.setReg r v).nextDraw = s.nextDraw := rfl

/-- Of two writes of registers the later one wins on the same register; else their order does not matter. -/
theorem State.setReg_setReg (d : Reg) (x : Word) : (s.setReg r v).setReg d x = (s.setReg d x).changed [d] r v := by
  unfold State.changed
  split_ifs with h
  · obtain rfl := List.mem_singleton.1 h
    exact congrArg (fun y => { s with regs := y }) (Regs.set_set ..)
  · exact congrArg (fun y => { s with regs := y }) (Regs.set_comm _ _ _ (by simpa using h))

@[simp] theorem State.writeDr_setReg (d : Reg) (x : Word) :
    (s.setReg r v).writeDr d x = (s.writeDr d x).changed [d] r v := by
  rw [State.writeDr, State.setReg_setReg]
  unfold State.changed
  split_ifs <;> rfl

@[simp] theorem State.loadDr_setReg (d : Reg) (ea : Word) :
    (s.setReg r v).loadDr d ea = (s.loadDr d ea).changed [d] r v :=
  State.writeDr_setReg (s.emit [.memRead ea]) r v d (s.cell ea)

@[simp] theorem State.linkR7_setReg : (s.setReg r v).linkR7 = s.linkR7.changed [.r7] r v := State.setReg_setReg ..

@[simp] theorem State.linkR7_changed (written : List Reg) :
    (s.changed written r v).linkR7 = s.linkR7.changed (written ++ [.r7]) r v := by
  by_cases h : r ∈ written <;> simp [State.changed, h]

@[simp] theorem State.jump_changed (written : List Reg) (t : Word) :
    (s.changed written r v).jump t = (s.jump t).changed written r v := by
  unfold State.changed
  split_ifs <;> rfl

end Updates

@[simp] theorem mapNext_next (f : State → State) (t : State) : mapNext f (.next t) = .next (f t) := rfl
@[simp] theorem mapNext_fault (f : State → State) (e : Fault) : mapNext f (.fault e) = .fault e := rfl

/-- INN reads no register but R0, and that one only to keep it. -/
theorem takeInt_setReg {r : Reg} (hr : Reg.r0 ≠ r) (a : IntAnswer) (s : State) (v : Word) :
    State.takeInt params a (s.setReg r v) = (State.takeInt params a s).changed [.r0] r v := by
  cases a with
  | number k => simp [takeInt_number]
  | malformed => simp [takeInt_malformed_eq_writeDr, hr]

theorem inputMissing_setReg (i : Instr) (s : State) (r : Reg) (v : Word) :
    inputMissing i (s.setReg r v) = inputMissing i s := by
  cases i <;> rfl

/-- Every operand reads as before the change, and the updates of the state leave the changed register to the end. -/
theorem exec_setReg {i : Instr} {s : State} {r : Reg} (v : Word) (hr : r ∉ readRegs i)
    (hready : inputMissing i s = false) :
    exec i (s.setReg r v) = mapNext (·.changed (writtenRegs i) r v) (exec i s) := by
  have hother : ∀ x ∈ readRegs i, ¬x = r := fun x hx => ne_of_mem_of_not_mem hx hr
  unfold readRegs at hother
  cases i with
  | add | addi | and | andi | not =>
    simp [exec_add, exec_addi, exec_and, exec_andi, exec_not, hother, writtenRegs]
  | ld | ldi | lea | st | sti =>
    simp [exec_ld, exec_ldi, exec_lea, exec_st, exec_sti, hother, writtenRegs]
  | ldr | str | jsrr | jmpr =>
    simp [exec_ldr, exec_str, exec_jsrr, exec_jmpr, jsrrBase_eq, mapNext_ite, hother, writtenRegs]
  | jsr | jmp | ret | dbug =>
    simp [exec_jsr, exec_jmp, exec_ret, exec_dbug, hother, writtenRegs]
  | br n z p off =>
    by_cases htaken : branchTaken n z p s.cc = true <;> simp [exec_br, htaken, writtenRegs]
  | trapOut | trapOutn | trapUnsupported | trapRnd =>
    simp [exec_trapOut, exec_trapOutn, exec_trapUnsupported, exec_trapRnd, hother, writtenRegs]
  | trapHalt => exact congrArg Host.Outcome.next (State.linkR7_setReg { s.beginCycle with halted := true } r v)
  | trapPuts =>
    have hr0 : (s.setReg r v).reg .r0 = s.reg .r0 := by simp [hother]
    cases hs : scanString .lowByteZero s.mem (65536 - (s.reg .r0).toNat) (s.reg .r0) with
    | none => rw [exec_trapPuts_none s hs, exec_trapPuts_none (s.setReg r v) (hr0.symm ▸ hs)]; rfl
    | some codes =>
      rw [exec_trapPuts_some s hs, exec_trapPuts_some (s.setReg r v) (hr0.symm ▸ hs), hr0]
      simp [writtenRegs]
  | trapIn =>
    cases hc : s.charIn with
    | nil => simp [inputMissing, hc] at hready
    | cons c rest =>
      rw [exec_trapIn_cons s hc, exec_trapIn_cons (s.setReg r v) hc]
      have hwrite := (State.emit { s.beginCycle with charIn := rest } [.inChar c]).writeDr_setReg r v .r0 (trunc16 c)
      exact congrArg Host.Outcome.next ((congrArg State.linkR7 hwrite).trans (State.linkR7_changed ..))
  | trapInn =>
    cases hc : s.intIn with
    | nil => simp [inputMissing, hc] at hready
    | cons a rest =>
      rw [exec_trapInn_cons s hc, exec_trapInn_cons (s.setReg r v) hc]
      have htake := takeInt_setReg (hother .r0 (List.mem_singleton_self _)) a
        (State.emit { s.beginCycle with intIn := rest } [.inInt a]) v
      exact congrArg Host.Outcome.next ((congrArg State.linkR7 htake).trans (State.linkR7_changed ..))

end RegisterReads

/-- Settles O13: a held step keeps the changed register, and any other keeps it unless it writes it. -/
theorem registerReadsAreConfined : Obligations.RegisterReadsAreConfined := by
  intro i s r v hr
  cases hready : inputMissing i s with
  | true =>
    rw [exec_held hready, exec_held ((inputMissing_setReg i s r v).trans hready)]
    simp
  | false =>
    rw [exec_setReg v hr hready]
    cases exec i s with
    | next t => simp [State.changed]
    | fault f => rfl
    | refused f => rfl

end Sys2Proof.Machine

namespace Sys2Proof.Machine

/-! ## ADD and ADDI: the overflow test; the page-relative address (41_operate.md R85, 30_encoding.md R55) -/

/-- Settles O28: the two readings of the test are `overflow_iff_msb` and `overflow_iff_toInt`. -/
theorem overflowTestAndReport : Obligations.OverflowTestAndReport := by
  refine ⟨fun a b => ⟨overflow_iff_msb a b, overflow_iff_toInt a b⟩, fun dr sr1 s => ⟨fun sr2 => ?_, fun imm => ?_⟩⟩
  · exact ⟨_, exec_add s dr sr1 sr2, wroteDr_beginCycle_emit_writeDr ..⟩
  · exact ⟨_, exec_addi s dr sr1 imm, wroteDr_beginCycle_emit_writeDr ..⟩

/-- Settles O29: the address lies in the page of ia + 1, which is another page only after a page's last cell. -/
theorem pageRelativeAddress : Obligations.PageRelativeAddress := by
  intro ia off
  have hsucc : (ia + 1).toNat = (ia.toNat + 1) % 65536 := BitVec.toNat_add ..
  have hpage : page (pgaddr (ia + 1) off) = page (ia + 1) := page_pgaddr ..
  refine ⟨hsucc ▸ pgaddr_toNat (ia + 1) off, hpage, ?_⟩
  rw [hpage, ne_eq, page_succ_eq_iff, not_ne_iff]

/-! ## LDR and STR with the address in range (42_load_store.md R92, R93) -/

/-- Settles O32: in range, the address LDR forms is the sum itself. -/
theorem loadIndexed : Obligations.LoadIndexed := by
  intro dr baser idx s hrange
  have haddr : (BitVec.ofNat 16 (indexSum (s.reg baser) idx)).toNat = (s.reg baser).toNat + idx.toNat :=
    Nat.mod_eq_of_lt (Nat.lt_succ_of_le hrange)
  refine ⟨_, (exec_ldr s baser idx dr).trans (if_pos (Nat.lt_succ_of_le hrange)), ?_⟩
  rw [State.loadDr_eq, State.beginCycle_cell, State.cell_eq_read, haddr]
  exact wroteDr_beginCycle_emit_writeDr ..

/-- Settles O33: in range, STR uses the address its sum names. -/
theorem storeIndexed : Obligations.StoreIndexed := by
  intro sr baser idx s hwf hrange
  refine ⟨_, (exec_str s baser idx sr).trans (if_pos (Nat.lt_succ_of_le hrange)), ?_⟩
  simpa using wroteCell_beginCycle_emit_storeCell hwf (BitVec.ofNat 16 (indexSum (s.reg baser) idx)) (s.reg sr) []

/-! ## Branches and jumps (40_control_transfer.md R70 to R74) -/

section Jumps

/-- The cycle's first two steps, a report `es`, and then a jump: nothing else changes. -/
theorem jumped_emit_jump (s : State) (target : Word) (es : List Event) :
    jumped false target (fetchReport s.pc ++ es) s ((s.beginCycle.emit es).jump target) := by
  have hevents : ((s.beginCycle.emit es).jump target).events = s.events ++ (fetchReport s.pc ++ es) := by
    simp [cycleEvents_eq]
  exact ⟨rfl, nofun, ⟨fun _ _ => rfl, rfl, rfl, rfl, rfl, rfl⟩, rfl, fun _ => rfl, hevents⟩

/-- The same with the link write before the jump: R7 alone changes with pc and the history. -/
theorem jumped_emit_linkR7_jump (s : State) (target : Word) (es : List Event) :
    jumped true target (fetchReport s.pc ++ es) s ((s.beginCycle.emit es).linkR7.jump target) := by
  have hevents : ((s.beginCycle.emit es).linkR7.jump target).events = s.events ++ (fetchReport s.pc ++ es) := by
    simp [cycleEvents_eq]
  have hregs : regsSameBut [.r7] s ((s.beginCycle.emit es).linkR7.jump target) := fun r hr => by
    simp [List.mem_singleton.not.1 hr]
  exact ⟨rfl, fun _ => by simp, ⟨hregs, rfl, rfl, rfl, rfl, rfl⟩, rfl, fun _ => rfl, hevents⟩

theorem jumped_formPage_jump (s : State) (off : BitVec 9) :
    jumped false (pgaddr (s.pc + 1) off) (fetchReport s.pc ++ crossReport s.pc (pgaddr (s.pc + 1) off)) s
      ((s.formPage off).jump (pgaddr (s.pc + 1) off)) :=
  s.formPage_eq off ▸ jumped_emit_jump ..

theorem branchTaken_iff {n z p : Bool} {cc : Cc} :
    branchTaken n z p cc = true ↔ (n = true ∧ cc = .n) ∨ (z = true ∧ cc = .z) ∨ (p = true ∧ cc = .p) := by
  cases cc <;> simp [branchTaken]

theorem jmp_eq_br_always (off : BitVec 9) (s : State) : exec (.jmp off) s = exec (.br true true true off) s := by
  have htaken : branchTaken true true true s.cc = true := by cases s.cc <;> rfl
  rw [exec_br, if_pos htaken, exec_jmp]

end Jumps

/-- Settles O37: not taken, BR is the cycle's first two steps alone. -/
theorem branchOnFlag : Obligations.BranchOnFlag := by
  intro n z p off s
  refine ⟨_, exec_br s n z p off, ?_⟩
  simp only [← branchTaken_iff]
  refine ⟨fun htaken => ?_, fun hnot => ?_⟩
  · rw [if_pos htaken]
    exact jumped_formPage_jump s off
  · rw [if_neg hnot]
    exact jumped_beginCycle_jump s (s.pc + 1)

/-- Settles O38: the link write comes after the address is formed, and before the jump. -/
theorem jumpToSubroutine : Obligations.JumpToSubroutine := by
  intro off s
  refine ⟨_, exec_jsr s off, ?_⟩
  rw [State.formPage_eq]
  exact jumped_emit_linkR7_jump ..

/-- Settles O39: JMP is the jump BR makes when it is taken, as it is with all three condition bits. -/
theorem jumpPageRelative : Obligations.JumpPageRelative := fun off s =>
  ⟨⟨_, exec_jmp s off, jumped_formPage_jump s off⟩, jmp_eq_br_always off s⟩

/-- Settles O40: the base is read after the link write. -/
theorem jumpToSubroutineIndexed : Obligations.JumpToSubroutineIndexed := by
  intro baser idx s hrange
  rw [← jsrrBase_eq] at hrange ⊢
  refine ⟨_, (exec_jsrr s baser idx).trans (if_pos (Nat.lt_succ_of_le hrange)), ?_⟩
  simpa [indexSum] using jumped_emit_linkR7_jump s (BitVec.ofNat 16 (indexSum (jsrrBase params baser s) idx)) []

/-- Settles O41: with index 0 the sum is R7 itself, always in range. -/
theorem jumpIndexed : Obligations.JumpIndexed := by
  refine ⟨fun baser idx s hrange => ?_, fun s => ?_⟩
  · exact ⟨_, (exec_jmpr s baser idx).trans (if_pos (Nat.lt_succ_of_le hrange)), jumped_beginCycle_jump ..⟩
  · have hsum : indexSum (s.reg .r7) 0 = (s.reg .r7).toNat := rfl
    rw [exec_jmpr, hsum, if_pos (s.reg .r7).isLt, BitVec.ofNat_toNat, BitVec.setWidth_eq, exec_ret]

/-! ## TRAP and DBUG (43_trap_and_debug.md R100 to R109) -/

section Traps

/-- The cycle's first two steps, a report `es`, and then the link write: nothing else changes. -/
theorem trapped_emit_linkR7 (s : State) (es : List Event) :
    trapped (fetchReport s.pc ++ es) s (s.beginCycle.emit es).linkR7 := by
  have hregs : regsSameBut [.r7] s (s.beginCycle.emit es).linkR7 := fun r hr => by
    simp [List.mem_singleton.not.1 hr]
  exact ⟨by simp, rfl, hregs, rfl, fun _ => rfl, ⟨rfl, rfl, rfl, rfl⟩, by simp [cycleEvents_eq]⟩

/-- A TRAP that writes R0: whatever input it took and whatever it reported on the way, R0 and the flag are written and
then the link. -/
theorem trapWroteR0_writeDr_linkR7 {s u : State} {es : List Event} (v : Word) (hpc : u.pc = s.pc + 1)
    (hregs : u.regs = s.regs) (hmem : u.mem = s.mem) (hhalted : u.halted = s.halted)
    (hevents : u.events = s.events ++ es) : trapWroteR0 v es s (u.writeDr .r0 v).linkR7 := by
  have hother : regsSameBut [.r0, .r7] s (u.writeDr .r0 v).linkR7 := fun r hr => by
    simp only [List.mem_cons, List.not_mem_nil, or_false, not_or] at hr
    simp [hr, State.reg, hregs, Regs.get_set]
  exact ⟨by simp, by simp [ccOf_eq_flagOf], by simp [hpc], hpc, hother, fun _ => by simp [hmem], hhalted, hevents⟩

theorem signed_eq_of_toNat (v : Word) :
    signed v = if 32768 ≤ v.toNat then (v.toNat : Int) - 65536 else v.toNat := by
  rw [signed, BitVec.toInt_eq_toNat_cond]
  split_ifs <;> omega

theorem lowByte_toNat (v : Word) : (lowByte v).toNat = v.toNat % 256 := BitVec.toNat_setWidth ..

end Traps

/-- Settles O43: the low byte of R0 is its value modulo 256. -/
theorem trapOutEmitsLowByte : Obligations.TrapOutEmitsLowByte := fun s =>
  ⟨_, _, exec_trapOut s, lowByte_toNat _, trapped_emit_linkR7 .., rfl⟩

/-- Settles O44: the codes given are what the scan finds, since the terminator is in range. -/
theorem trapPutsEmitsTheString : Obligations.TrapPutsEmitsTheString := by
  intro s codes hrange hcodes hcells hend
  have haddr {k : Nat} (hk : k ≤ codes.length) : (s.reg .r0 + BitVec.ofNat 16 k).toNat = (s.reg .r0).toNat + k :=
    toNat_add_ofNat (by omega)
  have hscan : scanString .lowByteZero s.mem (65536 - (s.reg .r0).toNat) (s.reg .r0) = some codes := by
    refine scanString_eq_some.2 ⟨by omega, fun k hk => ?_, ?_⟩
    · have hcode := hcells k hk
      rw [haddr hk.le]
      exact ⟨decide_eq_false (hcodes _ (List.mem_of_getElem? hcode)), hcode⟩
    · rwa [haddr le_rfl, endsString_lowByteZero]
  refine ⟨_, exec_trapPuts_some s hscan, rfl, ?_⟩
  have hreads : scanReads (codes.length + 1) (s.reg .r0) =
      (List.range (codes.length + 1)).map fun k => Event.memRead (BitVec.ofNat 16 ((s.reg .r0).toNat + k)) := by
    rw [scanReads_eq]
    simp [BitVec.ofNat_add]
  rw [← hreads, List.append_assoc]
  exact trapped_emit_linkR7 ..

/-- Settles O45: the code is taken modulo 65536. -/
theorem trapInReadsCharacter : Obligations.TrapInReadsCharacter := by
  intro s c rest hc
  have hcode : BitVec.ofNat 16 (c % 65536) = trunc16 c := by
    apply BitVec.eq_of_toNat_eq
    simp [trunc16]
  refine ⟨_, exec_trapIn_cons s hc, hcode ▸ trapWroteR0_writeDr_linkR7 _ rfl rfl rfl rfl ?_, rfl, rfl, rfl, rfl⟩
  simp [cycleEvents_eq]

/-- Settles O46: HALT is the cycle and the link write with halted set, and a Halted engine has no step. -/
theorem trapHaltStopsTheEngine : Obligations.TrapHaltStopsTheEngine := by
  intro s
  have htrapped : trapped (fetchReport s.pc) s s.beginCycle.linkR7 := by
    simpa using trapped_emit_linkR7 s []
  refine ⟨_, exec_trapHalt s, rfl, htrapped, fun u h => ?_⟩
  rw [step_halted rfl] at h
  cases h

/-- Settles O47: the integer reported is R0's two's-complement value. -/
theorem trapOutnEmitsSignedDecimal : Obligations.TrapOutnEmitsSignedDecimal := by
  intro s
  refine ⟨_, exec_trapOutn s, rfl, ?_⟩
  rw [← signed_eq_of_toNat]
  exact trapped_emit_linkR7 ..

/-- Settles O51: the instruction reports the vector it carries. -/
theorem trapUnsupportedReports : Obligations.TrapUnsupportedReports := fun v s _ =>
  ⟨_, exec_trapUnsupported s v, rfl, trapped_emit_linkR7 ..⟩

/-- Settles O50: the draw is `State.nextDraw`, of which only the lined-up case is known. -/
theorem trapRndStoresTheDraw : Obligations.TrapRndStoresTheDraw := by
  intro s
  refine ⟨_, s.nextDraw, exec_trapRnd s, fun v rest h => ?_, trapWroteR0_writeDr_linkR7 _ rfl rfl rfl rfl ?_, rfl, rfl,
    rfl, rfl⟩
  · rw [State.nextDraw, h]
  · simp [cycleEvents_eq]

/-- Settles O52: DBUG leaves pc at the next address, so it is a jump there. -/
theorem debugRequestsDump : Obligations.DebugRequestsDump := fun s =>
  ⟨_, exec_dbug s, jumped_emit_jump s (s.pc + 1) [.diag .debugDump]⟩

section Inn

theorem ofInt_emod (k : Int) : BitVec.ofNat 16 (k % 65536).toNat = trunc16 k := by
  apply BitVec.eq_of_toNat_eq
  rw [BitVec.toNat_ofNat, trunc16, BitVec.toNat_ofInt]
  omega

theorem trunc16_toInt {k : Int} (hlo : -32768 ≤ k) (hhi : k ≤ 32767) : (trunc16 k).toInt = k := by
  rw [trunc16, BitVec.toInt_ofInt, Int.bmod_eq_of_le] <;> omega

/-- A number in range is stored under every value of the parameters. -/
theorem innWith_of_inRange (p : Params) {s : State} {k : Int} {rest : List IntAnswer}
    (hk : s.intIn = .number k :: rest) (hlo : -32768 ≤ k) (hhi : k ≤ 32767) :
    innWith p s = .next
      ((State.emit { s.beginCycle with intIn := rest } [.inInt (.number k)]).writeDr .r0 (trunc16 k)).linkR7 := by
  have hrange : inSigned16 k = true := by simp [inSigned16, hlo, hhi]
  simp [innWith, hk, State.takeInt, hrange]

/-- What INN does with any answer: R0 and the flag are written, then the link, and the answer is taken and recorded. -/
theorem trapWroteR0_inn {s : State} {r : IntAnswer} {rest : List IntAnswer} {v : Word} {es : List Event}
    (hr : s.intIn = r :: rest)
    (htake : State.takeInt params r (State.emit { s.beginCycle with intIn := rest } [.inInt r]) =
      State.writeDr (State.emit { s.beginCycle with intIn := rest } (.inInt r :: es)) .r0 v) :
    ∃ t, exec .trapInn s = .next t ∧ trapWroteR0 v (fetchReport s.pc ++ .inInt r :: es) s t ∧
      t.charIn = s.charIn ∧ t.intIn = rest ∧ t.rndIn = s.rndIn ∧ t.rndCount = s.rndCount := by
  rw [exec_trapInn_cons s hr, htake]
  refine ⟨_, rfl, trapWroteR0_writeDr_linkR7 v rfl rfl rfl rfl ?_, rfl, rfl, rfl, rfl⟩
  simp [cycleEvents_eq]

end Inn

/-- Settles O48: a number in range is stored before any parameter is looked at. -/
theorem trapInnReadsInRangeNumber : Obligations.TrapInnReadsInRangeNumber := by
  intro s k rest hk hlo hhi
  refine ⟨?_, fun p => ?_⟩
  · obtain ⟨t, hexec, hwrote, hinputs⟩ :=
      trapWroteR0_inn (v := trunc16 k) (es := []) hk (by simp [takeInt_number, hlo, hhi])
    have hr0 : t.reg .r0 = trunc16 k := hwrote.1
    exact ⟨t, hexec, hwrote, hr0 ▸ trunc16_toInt hlo hhi, hinputs⟩
  · exact (innWith_of_inRange p hk hlo hhi).trans (innWith_of_inRange params hk hlo hhi).symm

/-- Settles O49: both errors write R0, a number's with its truncation and malformed input's with R0 itself. -/
theorem trapInnReportsInputError : Obligations.TrapInnReportsInputError := by
  intro s rest
  refine ⟨fun k hk hout => ?_, fun hk => ?_⟩
  · rw [ofInt_emod]
    refine trapWroteR0_inn hk ?_
    rw [takeInt_number, if_neg (by omega), State.emit_emit]
    rfl
  · refine trapWroteR0_inn hk ?_
    rw [takeInt_malformed_eq_writeDr, State.emit_emit]
    rfl

end Sys2Proof.Machine

namespace Sys2Proof.Machine

/-! ## Hold (00_scope.md section 5) -/

section Hold

/-- A character supplied to a state whose queue is empty is the next answer, and the step completes. -/
theorem step_supplyChar {s : State} (hrun : s.halted = false) (hi : decode s.fetchWord = .trapIn) (hc : s.charIn = [])
    (c : Nat) : (s.supplyChar c).held = false ∧
      ∃ t, step (s.supplyChar c) = .next t ∧ t.pc = s.pc + 1 ∧ t.reg .r0 = BitVec.ofNat 16 c := by
  have hready : (s.supplyChar c).charIn = [c] := by simp [State.supplyChar, hc]
  have hi' : decode (s.supplyChar c).fetchWord = .trapIn := hi
  obtain ⟨t, hexec, ⟨hr0, _, _, hpc, _⟩, _⟩ := trapInReadsCharacter (s.supplyChar c) c [] hready
  refine ⟨by simp [State.held, hi', inputMissing, hready], t, ?_, hpc, hr0.trans ?_⟩
  · rw [step_running (s := s.supplyChar c) hrun, hi', hexec]
  · exact BitVec.eq_of_toNat_eq (by simp)

/-- The same for an integer, whatever the answer is. -/
theorem step_supplyInt {s : State} (hrun : s.halted = false) (hi : decode s.fetchWord = .trapInn) (hc : s.intIn = [])
    (r : IntAnswer) : (s.supplyInt r).held = false ∧ ∃ t, step (s.supplyInt r) = .next t ∧ t.pc = s.pc + 1 := by
  have hready : (s.supplyInt r).intIn = [r] := by simp [State.supplyInt, hc]
  have hi' : decode (s.supplyInt r).fetchWord = .trapInn := hi
  have hheld : inputMissing .trapInn (s.supplyInt r) = false := by simp [inputMissing, hready]
  have hexec := exec_trapInn_cons (s.supplyInt r) hready
  refine ⟨by rw [State.held, hi', hheld], _, ?_, (exec_confined hheld hexec).pc rfl⟩
  rw [step_running (s := s.supplyInt r) hrun, hi', hexec]

end Hold

/-- Settles O53: a held step is a TRAP IN or INN whose queue is empty, and one answer makes it non-empty. -/
theorem heldStepChangesNothing : Obligations.HeldStepChangesNothing := by
  intro s hrun hheld
  refine ⟨(step_running hrun).trans (exec_held hheld), ?_⟩
  obtain ⟨hi, hc⟩ | ⟨hi, hc⟩ := inputMissing_iff.1 hheld
  · exact .inl ⟨hi, step_supplyChar hrun hi hc⟩
  · exact .inr ⟨hi, step_supplyInt hrun hi hc⟩

/-! ## The parameters (92_eei_decisions.md, "Parameters in one place") -/

section Parameters
variable (p : Params) {s : State}

/-- Out of a page's last cell, forming an address reports nothing, taken or not. -/
theorem formPage_eq_beginCycle (h : s.pc.toNat % 512 ≠ 511) (off : BitVec 9) : s.formPage off = s.beginCycle := by
  rw [State.formPage_eq, crossReport, if_neg h, State.emit_nil]

theorem brWith_eq {n z c : Bool} (off : BitVec 9) (h : ¬(branchTaken n z c s.cc = false ∧ s.pc.toNat % 512 = 511)) :
    brWith p n z c off s = exec (.br n z c off) s := by
  rw [exec_br, brWith]
  cases htaken : branchTaken n z c s.cc with
  | true => rfl
  | false =>
    have hlast : s.pc.toNat % 512 ≠ 511 := fun h' => h ⟨htaken, h'⟩
    rw [formPage_eq_beginCycle hlast]
    split_ifs <;> rfl

theorem endsString_zero (t : PutsTerminator) : endsString t 0 = true := by cases t <;> rfl

theorem endsString_of_lowByte_ne {w : Word} (h : w.toNat % 256 ≠ 0) (t : PutsTerminator) : endsString t w = false := by
  cases t with
  | lowByteZero => exact Bool.eq_false_of_not_eq_true (mt (endsString_lowByteZero w).1 h)
  | wordZero => exact decide_eq_false (by rintro rfl; exact h rfl)

/-- Where a zero word ends the string under both terminators, the scan answers the codes before it, whatever the
terminator and however many cells beyond it may be read. -/
theorem scanString_of_zero_word (t : PutsTerminator) {m : Memory} {cells n : Nat} {a : Word} (hn : a.toNat + n < 65536)
    (hcells : n < cells) (hzero : m.read (a.toNat + n) = 0)
    (hcodes : ∀ j, j < n → (m.read (a.toNat + j)).toNat % 256 ≠ 0) :
    scanString t m cells a = some ((List.range n).map fun j => lowByte (m.read (a.toNat + j))) := by
  refine scanString_eq_some.2 ⟨by simpa using hcells, fun j hj => ?_, ?_⟩
  · rw [List.length_map, List.length_range] at hj
    rw [toNat_add_ofNat (by omega)]
    exact ⟨endsString_of_lowByte_ne (hcodes j hj) t, by simp [hj]⟩
  · rw [List.length_map, List.length_range, toNat_add_ofNat hn, hzero]
    exact endsString_zero t

theorem lt_scanLimit {a : Word} {n : Nat} (h : a.toNat + n < 65536) : n < scanLimit p a := by
  unfold scanLimit
  split <;> omega

theorem putsWith_eq (h : ∃ k, (s.reg .r0).toNat ≤ k ∧ k < 65536 ∧ s.mem.read k = 0 ∧
    ∀ j, (s.reg .r0).toNat ≤ j → j < k → (s.mem.read j).toNat % 256 ≠ 0) : putsWith p s = exec .trapPuts s := by
  obtain ⟨k, hk, hlt, hzero, hcodes⟩ := h
  obtain ⟨n, rfl⟩ := Nat.exists_eq_add_of_le hk
  have hscan (q : Params) := scanString_of_zero_word q.putsTerminator hlt (lt_scanLimit q hlt) hzero
    fun j hj => hcodes _ (Nat.le_add_right ..) (by omega)
  change putsWith p s = putsWith params s
  rw [putsWith, putsWith, hscan, hscan]

theorem innWith_eq (h : ¬((∃ rest, s.intIn = .malformed :: rest) ∨
    ∃ k rest, s.intIn = .number k :: rest ∧ (k < -32768 ∨ 32767 < k))) : innWith p s = exec .trapInn s := by
  cases hc : s.intIn with
  | nil => rw [exec_trapInn_nil s hc, innWith, hc]
  | cons r rest =>
    cases r with
    | malformed => exact absurd (.inl ⟨rest, hc⟩) h
    | number k =>
      have hrange : ¬(k < -32768 ∨ 32767 < k) := fun hk => h (.inr ⟨k, rest, hc, hk⟩)
      exact (trapInnReadsInRangeNumber s k rest hc (by omega) (by omega)).2 p

theorem withAddress_eq {n : Nat} (h : ¬65535 < n) (ia : Word) (use : Word → Out) :
    withAddress p ia n use = withAddress params ia n use := by
  have hlt : n < 65536 := by omega
  rw [withAddress_of_lt p ia use hlt, withAddress_of_lt params ia use hlt]

theorem jsrrWith_eq {baser : Reg} {idx : BitVec 6} (h : ¬(baser = .r7 ∨ 65535 < (s.reg baser).toNat + idx.toNat)) :
    jsrrWith p baser idx s = exec (.jsrr baser idx) s := by
  obtain ⟨hbase, hrange⟩ := not_or.1 h
  have hlink (q : Params) : jsrrBase q baser s = s.reg baser := by
    unfold jsrrBase
    split <;> simp [hbase]
  change jsrrWith p baser idx s = jsrrWith params baser idx s
  rw [jsrrWith, jsrrWith, hlink, hlink]
  exact withAddress_eq p hrange ..

/-- A case per constructor: seven meanings take the parameters, the others are exec's own. -/
theorem execWith_eq {i : Instr} (h : ¬parameterCase i s) : execWith p i s = exec i s := by
  cases i with
  | br _ _ _ off => exact brWith_eq p off h
  | ldr dr => exact withAddress_eq p h s.pc fun ea => .next (s.beginCycle.loadDr dr ea)
  | str sr => exact withAddress_eq p h s.pc fun ea => .next (s.beginCycle.storeCell ea (s.reg sr))
  | jmpr => exact withAddress_eq p h s.pc fun t => .next (s.beginCycle.jump t)
  | jsrr => exact jsrrWith_eq p h
  | trapPuts => exact putsWith_eq p (not_not.1 h)
  | trapInn => exact innWith_eq p h
  | _ => rfl

end Parameters

end Sys2Proof.Machine

namespace Sys2Proof.Machine

/-! ## The load session (70_reset_and_hazards.md R141 to R150) -/

section LoadSession

theorem hexDigit_lt {c : Char} {d : Nat} (h : hexDigit c = some d) : d < 16 := by
  unfold hexDigit at h
  dsimp only at h
  split_ifs at h <;> cases h <;> omega

theorem hexField_lt {a b c d : Char} {n : Nat} (h : hexField a b c d = some n) : n < 65536 := by
  unfold hexField at h
  split at h
  next ha hb hc hd =>
    cases h
    have := hexDigit_lt ha
    have := hexDigit_lt hb
    have := hexDigit_lt hc
    have := hexDigit_lt hd
    omega
  · cases h

theorem hexDigit_hexChar {d : Nat} (h : d < 16) : hexDigit (hexChar d) = some d := by
  interval_cases d <;> rfl

/-- The four digits of a word name it. -/
theorem hexField_digits (w : Word) :
    hexField (hexChar (w.toNat / 4096)) (hexChar (w.toNat / 256 % 16)) (hexChar (w.toNat / 16 % 16))
      (hexChar (w.toNat % 16)) = some w.toNat := by
  have hlt := w.isLt
  rw [hexField, hexDigit_hexChar (by omega), hexDigit_hexChar (by omega), hexDigit_hexChar (by omega),
    hexDigit_hexChar (by omega)]
  simp only [Option.some.injEq]
  omega

theorem textCell?_of_ne {kind : Char} (h : kind ≠ 'T') (fields : Line) : textCell? (kind :: fields) = none := by
  unfold textCell?
  split <;> simp_all

theorem endAddress?_of_ne {kind : Char} (h : kind ≠ 'E') (fields : Line) : endAddress? (kind :: fields) = none := by
  unfold endAddress?
  split <;> simp_all

theorem headerRecord_ok {ls ls' : LoadSession} {fields : Line} (h : headerRecord ls fields = .ok ls') :
    ∃ seg, ls' = { ls with phase := .segmentOpen seg } := by
  unfold headerRecord at h
  split at h
  · split at h
    · cases h
      exact ⟨_, rfl⟩
    · cases h
  · cases h

theorem textRecord_ok {ls ls' : LoadSession} {seg : Segment} {fields : Line} (h : textRecord ls seg fields = .ok ls') :
    ∃ a v, textCell? ('T' :: fields) = some (a, v) ∧ seg.holds a.toNat = true ∧ ls' = ls.putCell a v := by
  unfold textRecord at h
  split at h
  · split at h
    next a v ha hv =>
      split_ifs at h with hin
      cases h
      have hlt := hexField_lt ha
      have haddr : (BitVec.ofNat 16 a).toNat = a := Nat.mod_eq_of_lt hlt
      refine ⟨BitVec.ofNat 16 a, BitVec.ofNat 16 v, by simp [textCell?, ha, hv], haddr.symm ▸ hin, ?_⟩
      rw [LoadSession.putCell, haddr]
    · cases h
  · cases h

theorem endRecord_ok {ls ls' : LoadSession} {seg : Segment} {fields : Line} (h : endRecord ls seg fields = .ok ls') :
    ∃ a, endAddress? ('E' :: fields) = some a ∧ ls' = ⟨.closed seg, { ls.machine with pc := a }⟩ := by
  unfold endRecord at h
  split at h
  · split at h
    next a ha =>
      split_ifs at h
      cases h
      exact ⟨BitVec.ofNat 16 a, by simp [endAddress?, ha], rfl⟩
    · cases h
  · cases h

/-- What a line that goes through does to the session. -/
inductive Parsed (line : Line) (ls : LoadSession) : LoadSession → Prop
  | ignored (htext : textCell? line = none) (hend : endAddress? line = none) : Parsed line ls ls
  | header (seg : Segment) (hphase : ls.phase = .awaitingHeader) (htext : textCell? line = none)
      (hend : endAddress? line = none) : Parsed line ls { ls with phase := .segmentOpen seg }
  | text (seg : Segment) (a v : Word) (hphase : ls.phase = .segmentOpen seg) (htext : textCell? line = some (a, v))
      (hend : endAddress? line = none) (hin : seg.holds a.toNat = true) : Parsed line ls (ls.putCell a v)
  | entry (seg : Segment) (a : Word) (hphase : ls.phase = .segmentOpen seg) (htext : textCell? line = none)
      (hend : endAddress? line = some a) : Parsed line ls ⟨.closed seg, { ls.machine with pc := a }⟩

/-- The loader's branches: the line's first character, then the session's phase. -/
theorem parsed_of_parseRecord {ls ls' : LoadSession} {line : Line} (h : parseRecord ls line = .ok ls') :
    Parsed line ls ls' := by
  cases line with
  | nil =>
    cases h
    exact .ignored rfl rfl
  | cons kind fields =>
    rw [parseRecord] at h
    split_ifs at h with hH hT hE hlower
    · subst hH
      split at h
      next hphase =>
        obtain ⟨seg, rfl⟩ := headerRecord_ok h
        exact .header seg hphase (textCell?_of_ne (by decide) _) (endAddress?_of_ne (by decide) _)
      · cases h
      · cases h
    · subst hT
      split at h
      · cases h
      next seg hphase =>
        obtain ⟨a, v, htext, hin, rfl⟩ := textRecord_ok h
        exact .text seg a v hphase htext (endAddress?_of_ne (by decide) _) hin
      · cases h
    · subst hE
      split at h
      · cases h
      next seg hphase =>
        obtain ⟨a, hend, rfl⟩ := endRecord_ok h
        exact .entry seg a hphase (textCell?_of_ne (by decide) _) hend
      · cases h
    · cases h
      exact .ignored (textCell?_of_ne hT _) (endAddress?_of_ne hE _)

theorem parseRecord_of_loadLines {ls ls' : LoadSession} {line : Line} {rest : List Line}
    (h : loadLines ls (line :: rest) = .ok ls') :
    ∃ ls₁, parseRecord ls line = .ok ls₁ ∧ loadLines ls₁ rest = .ok ls' := by
  unfold loadLines at h
  split at h
  next ls₁ hline => exact ⟨ls₁, hline, h⟩
  · cases h
  · cases h

/-- Once a segment is open, it stays the session's. -/
theorem loadLines_segment {ls ls' : LoadSession} {file : List Line} {seg : Segment} (h : loadLines ls file = .ok ls')
    (hseg : ls.phase.segment? = some seg) : ls'.phase.segment? = some seg := by
  induction file generalizing ls with
  | nil =>
    cases h
    exact hseg
  | cons line rest ih =>
    obtain ⟨ls₁, hline, hrest⟩ := parseRecord_of_loadLines h
    refine ih hrest ?_
    cases parsed_of_parseRecord hline with
    | ignored => exact hseg
    | header _ hphase => rw [hphase] at hseg; cases hseg
    | text => exact hseg
    | entry seg' _ hphase => rw [hphase] at hseg; exact hseg

/-- What a load that goes through does to the machine: only its cells and its pc. -/
theorem loadLines_machine {ls ls' : LoadSession} {file : List Line} (h : loadLines ls file = .ok ls') :
    ls'.machine =
      { ls.machine with
        pc := ((file.filterMap endAddress?).getLast?).getD ls.machine.pc
        mem := writeCells ls.machine.mem (file.filterMap textCell?) } := by
  induction file generalizing ls with
  | nil =>
    cases h
    rfl
  | cons line rest ih =>
    obtain ⟨ls₁, hline, hrest⟩ := parseRecord_of_loadLines h
    rw [ih hrest]
    cases parsed_of_parseRecord hline with
    | ignored htext hend | header _ _ htext hend =>
      rw [List.filterMap_cons_none htext, List.filterMap_cons_none hend]
    | text _ a v _ htext hend =>
      rw [List.filterMap_cons_some htext, List.filterMap_cons_none hend]
      rfl
    | entry _ a _ htext hend =>
      rw [List.filterMap_cons_none htext, List.filterMap_cons_some hend, List.getLast?_cons]
      rfl

/-- A Text line goes through only inside the segment open then, which stays the session's. -/
theorem loadLines_cells_inside {ls ls' : LoadSession} {file : List Line} (h : loadLines ls file = .ok ls') :
    ∀ c ∈ file.filterMap textCell?, ∃ seg, ls'.phase.segment? = some seg ∧ seg.holds c.1.toNat = true := by
  induction file generalizing ls with
  | nil => nofun
  | cons line rest ih =>
    obtain ⟨ls₁, hline, hrest⟩ := parseRecord_of_loadLines h
    cases parsed_of_parseRecord hline with
    | text seg a v hphase htext _ hin =>
      rw [List.filterMap_cons_some htext]
      have hseg : (ls.putCell a v).phase.segment? = some seg := by rw [LoadSession.putCell_phase, hphase]; rfl
      exact List.forall_mem_cons.2 ⟨⟨seg, loadLines_segment hrest hseg, hin⟩, ih hrest⟩
    | ignored htext | header _ _ htext | entry _ _ _ htext =>
      rw [List.filterMap_cons_none htext]
      exact ih hrest

theorem parseRecord_of_ignoredLine {ls : LoadSession} {line : Line} (h : ignoredLine line) :
    parseRecord ls line = .ok ls := by
  cases line with
  | nil => rfl
  | cons kind fields =>
    simp only [ignoredLine, List.mem_cons, List.not_mem_nil, or_false, not_or] at h
    simp [parseRecord, h]

/-- The segment a Header record declares (70_reset_and_hazards.md R145). -/
def declaredSegment (name : List Char) (start len : Word) : Segment :=
  ⟨name, start.toNat, (start.toNat : Int) + len.toNat - 1⟩

theorem declaredSegment_holds {name : List Char} {start len a : Word} (hmin : start.toNat ≤ a.toNat)
    (hmax : a.toNat < start.toNat + len.toNat) : (declaredSegment name start len).holds a.toNat = true :=
  Segment.holds_iff.2 (by simp only [declaredSegment]; omega)

/-- The Header line of any start and length opens its segment. -/
theorem parseRecord_headerLine {ls : LoadSession} (h : ls.phase = .awaitingHeader) (n1 n2 n3 n4 n5 n6 : Char)
    (start len : Word) : parseRecord ls (headerLine n1 n2 n3 n4 n5 n6 start len) =
      .ok ⟨.segmentOpen (declaredSegment [n1, n2, n3, n4, n5, n6] start len), ls.machine⟩ := by
  simp [headerLine, hexOf, parseRecord, h, headerRecord, hexField_digits, declaredSegment]

theorem parseRecord_end_segmentOpen {ls : LoadSession} {seg : Segment} (h : ls.phase = .segmentOpen seg)
    {a : Word} {a1 a2 a3 a4 : Char} (ha : hexField a1 a2 a3 a4 = some a.toNat) :
    parseRecord ls ['E', a1, a2, a3, a4] =
      if seg.holds a.toNat then .ok ⟨.closed seg, { ls.machine with pc := a }⟩ else .error .le7 := by
  simp [parseRecord, h, endRecord, ha]

theorem parseRecord_endLine {ls : LoadSession} {seg : Segment} {a : Word} (h : ls.phase = .segmentOpen seg)
    (hin : seg.holds a.toNat = true) :
    parseRecord ls (endLine a) = .ok ⟨.closed seg, { ls.machine with pc := a }⟩ :=
  (parseRecord_end_segmentOpen h (hexField_digits a)).trans (if_pos hin)

theorem loadLines_cons {ls ls₁ : LoadSession} {line : Line} (h : parseRecord ls line = .ok ls₁) (rest : List Line) :
    loadLines ls (line :: rest) = loadLines ls₁ rest := by
  rw [loadLines, h]

theorem launch_of_closed {file : List Line} {seg : Segment} {s : State}
    (h : loadLines .new file = .ok ⟨.closed seg, s⟩) : launch file = .ready s := by
  have h' : loadLines (.newWith params) file = .ok ⟨.closed seg, s⟩ := h
  rw [launch, launchWith, h']

/-- Text lines inside the open segment write their cells in order and leave the session open. -/
theorem loadLines_textLines {ls : LoadSession} {seg : Segment} {cells : List (Word × Word)} (rest : List Line)
    (h : ls.phase = .segmentOpen seg) (hin : ∀ c ∈ cells, seg.holds c.1.toNat = true) :
    loadLines ls (cells.map (fun c => textLine c.1 c.2) ++ rest) =
      loadLines { ls with machine := { ls.machine with mem := writeCells ls.machine.mem cells } } rest := by
  induction cells generalizing ls with
  | nil => rfl
  | cons c cells ih =>
    obtain ⟨hc, hcells⟩ := List.forall_mem_cons.1 hin
    have hline : parseRecord ls (textLine c.1 c.2) = .ok (ls.putCell c.1 c.2) :=
      parseRecord_text_inside h hc (hexField_digits c.1) (hexField_digits c.2)
    rw [List.map_cons, List.cons_append, loadLines_cons hline]
    exact ih ((ls.putCell_phase c.1 c.2).trans h) hcells

end LoadSession

/-- Settles O55: four digits written for a word are read back as it. -/
theorem headerRecordOpensTheSegment : Obligations.HeaderRecordOpensTheSegment := by
  intro ls n1 n2 n3 n4 n5 n6 start len
  exact ⟨fun h => parseRecord_headerLine h .., fun seg h => by simp [headerLine, parseRecord, h]⟩

/-- Settles O57: the record's checks in their order: phase, digits, bounds. -/
theorem endRecordSetsThePc : Obligations.EndRecordSetsThePc := by
  intro ls seg a a1 a2 a3 a4 ha
  refine ⟨fun h => by simp [parseRecord, h], fun h hout => ?_, fun h hmin hmax => ?_⟩
  · rw [parseRecord_end_segmentOpen h ha, if_neg (mt Segment.holds_iff.1 hout)]
  · rw [parseRecord_end_segmentOpen h ha, if_pos (Segment.holds_iff.2 ⟨hmin, hmax⟩)]

/-- Settles O59: the Header opens the segment, each Text line writes its cell, the End line sets pc and closes. -/
theorem wellFormedObjectFileLaunches : Obligations.WellFormedObjectFileLaunches := by
  intro n1 n2 n3 n4 n5 n6 start len entry cells hcells hmin hmax
  apply launch_of_closed (seg := declaredSegment [n1, n2, n3, n4, n5, n6] start len)
  rw [loadLines_cons (parseRecord_headerLine rfl ..),
    loadLines_textLines _ rfl fun c hc => declaredSegment_holds (hcells c hc).1 (hcells c hc).2,
    loadLines_cons (parseRecord_endLine rfl (declaredSegment_holds hmin hmax))]
  rfl

/-- Settles O58: by induction over the lines, each of which is ignored, a Header, a Text or an End record. -/
theorem loadChangesOnlyMemoryAndPc : Obligations.LoadChangesOnlyMemoryAndPc :=
  ⟨fun _ _ _ h => ⟨loadLines_machine h, loadLines_cells_inside h⟩, fun _ _ h => parseRecord_of_ignoredLine h⟩

/-! ## The load session under any parameters: PC_RESET is overwritten by the End record -/

section LaunchParameters

/-- The session with another pc before its End record; a closed session's pc is the End record's. -/
def LoadSession.startedAt (q : Word) (ls : LoadSession) : LoadSession :=
  match ls.phase with
  | .awaitingHeader | .segmentOpen _ => { ls with machine := { ls.machine with pc := q } }
  | .closed _ => ls

/-- An answer of the loader with its session changed by `f`. -/
def LoadResult.map (f : LoadSession → LoadSession) : LoadResult → LoadResult
  | .ok ls => .ok (f ls)
  | .error e => .error e
  | .refused r => .refused r

variable (q : Word)

@[simp] theorem LoadSession.startedAt_phase (ls : LoadSession) : (ls.startedAt q).phase = ls.phase := by
  unfold LoadSession.startedAt
  split <;> rfl

theorem LoadSession.startedAt_open {ls : LoadSession} {seg : Segment} (h : ls.phase = .segmentOpen seg) :
    ls.startedAt q = { ls with machine := { ls.machine with pc := q } } := by
  rw [LoadSession.startedAt, h]

theorem LoadSession.startedAt_awaiting {ls : LoadSession} (h : ls.phase = .awaitingHeader) :
    ls.startedAt q = { ls with machine := { ls.machine with pc := q } } := by
  rw [LoadSession.startedAt, h]

theorem headerRecord_startedAt {ls : LoadSession} (h : ls.phase = .awaitingHeader) (fields : Line) :
    headerRecord (ls.startedAt q) fields = (headerRecord ls fields).map (·.startedAt q) := by
  rw [LoadSession.startedAt_awaiting q h]
  unfold headerRecord
  split
  · split <;> rfl
  · rfl

theorem textRecord_startedAt {ls : LoadSession} {seg : Segment} (h : ls.phase = .segmentOpen seg) (fields : Line) :
    textRecord (ls.startedAt q) seg fields = (textRecord ls seg fields).map (·.startedAt q) := by
  rw [LoadSession.startedAt_open q h]
  unfold textRecord
  split
  · split
    · split_ifs
      · simp [LoadResult.map, LoadSession.startedAt, h]
      · rfl
    · rfl
  · rfl

theorem endRecord_startedAt {ls : LoadSession} {seg : Segment} (h : ls.phase = .segmentOpen seg) (fields : Line) :
    endRecord (ls.startedAt q) seg fields = (endRecord ls seg fields).map (·.startedAt q) := by
  rw [LoadSession.startedAt_open q h]
  unfold endRecord
  split
  · split
    · split_ifs <;> rfl
    · rfl
  · rfl

/-- No record but the End record touches pc, and none reads it. -/
theorem parseRecord_startedAt (ls : LoadSession) (line : Line) :
    parseRecord (ls.startedAt q) line = (parseRecord ls line).map (·.startedAt q) := by
  cases line with
  | nil => rfl
  | cons kind fields =>
    rw [parseRecord, parseRecord, LoadSession.startedAt_phase]
    split_ifs
    · split
      next h => exact headerRecord_startedAt q h fields
      · rfl
      · rfl
    · split
      · rfl
      next h => exact textRecord_startedAt q h fields
      · rfl
    · split
      · rfl
      next h => exact endRecord_startedAt q h fields
      · rfl
    · rfl
    · rfl

theorem loadLines_startedAt (ls : LoadSession) (file : List Line) :
    loadLines (ls.startedAt q) file = (loadLines ls file).map (·.startedAt q) := by
  induction file generalizing ls with
  | nil => rfl
  | cons line rest ih =>
    rw [loadLines, loadLines, parseRecord_startedAt]
    cases parseRecord ls line with
    | ok ls₁ => exact ih ls₁
    | error e => rfl
    | refused r => rfl

theorem launchWith_eq (p : Params) (file : List Line) : launchWith p file = launch file := by
  have hnew : LoadSession.newWith p = LoadSession.new.startedAt p.pcReset := rfl
  have hload := loadLines_startedAt p.pcReset .new file
  rw [launch, launchWith, launchWith, hnew, hload, ← LoadSession.new]
  cases loadLines .new file with
  | ok ls =>
    simp only [LoadResult.map, LoadSession.startedAt_phase]
    cases hphase : ls.phase with
    | awaitingHeader => rfl
    | segmentOpen => rfl
    | closed => simp [LoadSession.startedAt, hphase]
  | error e => rfl
  | refused r => rfl

end LaunchParameters

/-- Settles O54: outside its case each parameter is not looked at, or both its values give the same state; and PC_RESET
goes when a load closes. -/
theorem parametersMatterOnlyInTheirCases : Obligations.ParametersMatterOnlyInTheirCases := by
  intro p
  refine ⟨fun i s h => execWith_eq p h, fun s h => ?_, launchWith_eq p⟩
  have hexec := execWith_eq p h
  rw [stepWith, step]
  exact congrArg _ hexec

/-! ## The driving loop (70_reset_and_hazards.md R152, R153) -/

section DrivingLoop

theorem drive_halted (limit : Nat) {s : State} (h : s.halted = true) : drive limit s = .ended s :=
  driveBy_halted step limit h

/-- A loop that reports an end stopped at a Halted engine, where a larger limit stops it too. -/
theorem drive_ended {limit : Nat} {s t : State} (h : drive limit s = .ended t) (extra : Nat) :
    t.halted = true ∧ drive (limit + extra) s = .ended t := by
  induction limit generalizing s with
  | zero =>
    cases hrun : s.halted with
    | true =>
      rw [drive_halted 0 hrun] at h
      cases h
      exact ⟨hrun, drive_halted _ hrun⟩
    | false => simp [drive, driveBy, hrun] at h
  | succ limit ih =>
    cases hrun : s.halted with
    | true =>
      rw [drive_halted _ hrun] at h
      cases h
      exact ⟨hrun, drive_halted _ hrun⟩
    | false =>
      cases hstep : step s with
      | next u =>
        have hdrive (n : Nat) : drive (n + 1) s = drive n u := by simp [drive, driveBy, hrun, hstep]
        rw [hdrive] at h
        rw [Nat.add_right_comm, hdrive]
        exact ih h
      | fault r => simp [drive, driveBy, hrun, hstep] at h
      | refused r => simp [drive, driveBy, hrun, hstep] at h

end DrivingLoop

/-- Settles O60: by induction on the limit: a Halted engine ends every loop, and a Running one takes the same step. -/
theorem endedRunIsHaltedAndStable : Obligations.EndedRunIsHaltedAndStable := fun _ extra _ _ h => drive_ended h extra

end Sys2Proof.Machine
